-- ==== Sys2Proof/Word.lean ====
section
/-! DEFINITION. The two word types of the block (00_scope.md R8): the byte, and the 16-bit value of the
sequence number, the payload length and the host-op word. Nothing in the block is signed. -/

namespace Sys2Proof

/-- An unsigned 8-bit value (R8). -/
abbrev Byte := BitVec 8

/-- An unsigned 16-bit value (R7, R8): a sequence number, a payload length, a host-op word. -/
abbrev Half := BitVec 16

end Sys2Proof
end

