-- ==== Sys2Proof/Syntax.lean ====
section
/-! DEFINITION. The instructions of the block: one constructor per row of spec/opcode_table.json.
The five frame commands are what the command code demultiplexer reads from a complete valid frame
(30_encoding.md R77); the six host operations are the input events (30_encoding.md R82, R83). -/

namespace Sys2Proof

/-- What Deserialize returns (40_codec.md R111). -/
structure FrameFields where
  version  : Byte
  sequence : Half
  command  : Byte
  payload  : List Byte
deriving DecidableEq, Repr

/-- One instruction. A frame command carries every field of its frame that the command byte does not
fix, so that decoding drops no bit of the wire frame (R70). -/
inductive Instr where
  /-- QUERY_PRODUCT_INFO, command `0x01` (42_dispatcher.md R161). -/
  | queryProductInfo (version : Byte) (sequence : Half) (payload : List Byte)
  /-- SYNC_NETWORK_STATUS, command `0x02` (R163). -/
  | syncNetworkStatus (version : Byte) (sequence : Half) (payload : List Byte)
  /-- RESET_MODULE_INBOUND, command `0x03` received (R166). -/
  | resetModuleInbound (version : Byte) (sequence : Half) (payload : List Byte)
  /-- QUERY_NETWORK_STATUS, command `0x20` received (R165). -/
  | queryNetworkStatus (version : Byte) (sequence : Half) (payload : List Byte)
  /-- UNRECOGNIZED_CMD, every other command byte (R167). -/
  | unrecognizedCmd (version : Byte) (sequence : Half) (command : Byte) (payload : List Byte)
  /-- SETUP, word `0x1000` (43_host_ops.md R190). -/
  | setup
  /-- RX_BYTE, word `0x2000 | data` (41_reassembler.md R138). -/
  | rxByte (data : Byte)
  /-- POLL_CHECK, word `0x3000 | due << 8` (R191). -/
  | pollCheck (due : Bool)
  /-- RESET_RESTART, word `0x4000` (R193). -/
  | resetRestart
  /-- LEAVE_REJOIN, word `0x5000` (R194). -/
  | leaveRejoin
  /-- DUMP, word `0x6000` (R196). -/
  | dump
deriving DecidableEq, Repr

/-- The two encodings the block decodes (30_encoding.md): a 16-bit host-op word (R82) and a wire frame
(R70). -/
inductive Encoding where
  | hostWord (w : Half)
  | frame (bytes : List Byte)
deriving DecidableEq, Repr

/-- Why a word or a byte sequence is no instruction. -/
inductive DecodeError where
  /-- The host-op word matches no row of R83 (R198). -/
  | reservedHostOp (w : Half)
  /-- Fewer bytes than the shortest frame, 9 (R75). -/
  | frameTooShort (length : Nat)
  /-- The first two bytes are not `55 AA` (R71). -/
  | badHeader (b0 b1 : Byte)
  /-- The sequence is not `9 + L` bytes long (R75). -/
  | badLength (length required : Nat)
  /-- The trailer is not the sum of the bytes before it (R76). -/
  | badChecksum (computed received : Byte)
deriving DecidableEq, Repr

end Sys2Proof
end

