-- ==== Sys2Proof/WellFormed.lean ====
section
/-! DEFINITION. Which instructions are terms of the encoding: the payload fits the 16-bit length field
(30_encoding.md R75), and `unrecognizedCmd` holds a command byte that no other row of R77 has. -/

namespace Sys2Proof

/-- R75: `0 <= L <= 65535`. -/
def payloadFits (payload : List Byte) : Bool := payload.length ≤ 65535

/-- R77: the command bytes with a row of their own. -/
def isNamedCommand (command : Byte) : Bool :=
  command == 0x01 || command == 0x02 || command == 0x03 || command == 0x20

/-- The instruction has an encoding (R70, R75, R77, R83). -/
def Instr.wellFormed : Instr → Bool
  | .queryProductInfo _ _ payload => payloadFits payload
  | .syncNetworkStatus _ _ payload => payloadFits payload
  | .resetModuleInbound _ _ payload => payloadFits payload
  | .queryNetworkStatus _ _ payload => payloadFits payload
  | .unrecognizedCmd _ _ command payload => payloadFits payload && !isNamedCommand command
  | .setup => true
  | .rxByte _ => true
  | .pollCheck _ => true
  | .resetRestart => true
  | .leaveRejoin => true
  | .dump => true

/-- The instruction is one of the five frame commands, run only inside an RX_BYTE step (R160). -/
def Instr.isFrameCommand : Instr → Bool
  | .queryProductInfo _ _ _ => true
  | .syncNetworkStatus _ _ _ => true
  | .resetModuleInbound _ _ _ => true
  | .queryNetworkStatus _ _ _ => true
  | .unrecognizedCmd _ _ _ _ => true
  | .setup => false
  | .rxByte _ => false
  | .pollCheck _ => false
  | .resetRestart => false
  | .leaveRejoin => false
  | .dump => false

end Sys2Proof
end

