-- ==== Sys2Proof/Decode.lean ====
section
/-! DEFINITION. The two decoders, total on any word and any byte sequence, and after them the encoder.
The stateless functions of the frame codec (40_codec.md: cks, Validate, Deserialize) stand here because
the frame decoder is made of them; Serialize, which may advance the counter, is Machine/Codec.lean. -/

namespace Sys2Proof

/-! ### Bytes and 16-bit values -/

/-- `be16(hi, lo) = hi * 256 + lo` (00_scope.md R8; 20_memory.md R54, R55). -/
def be16 (hi lo : Byte) : Half := BitVec.ofNat 16 (hi.toNat * 256 + lo.toNat)

/-- `hi8(v) = v[15:8]` (R8). -/
def hi8 (v : Half) : Byte := v.extractLsb' 8 8

/-- `lo8(v) = v[7:0]` (R8). -/
def lo8 (v : Half) : Byte := v.extractLsb' 0 8

/-! ### Wire constants -/

/-- `HDR0` (R7, R71). -/
abbrev hdr0 : Byte := 0x55

/-- `HDR1` (R7, R71). -/
abbrev hdr1 : Byte := 0xAA

/-- `VERSION`, the version byte sent (R7, R72). -/
abbrev versionByte : Byte := 0x02

/-- Header to length field: the eight bytes before the payload (R70, R75). -/
abbrev prefixLength : Nat := 8

/-- R75: "total frame length = 8 + payload length + 1". -/
def frameLength (payloadLength : Nat) : Nat := prefixLength + payloadLength + 1

/-! ### Checksum, Validate, Deserialize -/

/-- `cks(s)`: the sum of the bytes modulo 256 (40_codec.md R100). -/
def cks (s : List Byte) : Byte := BitVec.ofNat 8 (s.map BitVec.toNat).sum

/-- `Validate(f)` (R107): the last byte equals the checksum of the bytes before it; false for `[]`. -/
def validate (f : List Byte) : Bool :=
  match f.getLast? with
  | none => false
  | some c => cks f.dropLast == c

/-- `Deserialize(f)` (R111): fields by position, the payload length taken from the length field.
`none` where `f` breaks the precondition, a header-checked frame of `9 + L` bytes: there Deserialize has
no meaning (93_implementation_defined.md item 12). -/
def deserialize (f : List Byte) : Option FrameFields :=
  match f with
  | h0 :: h1 :: version :: seqHi :: seqLo :: command :: lenHi :: lenLo :: rest =>
    if h0 = hdr0 ∧ h1 = hdr1 ∧ rest.length = (be16 lenHi lenLo).toNat + 1 then
      some { version := version, sequence := be16 seqHi seqLo, command := command,
             payload := rest.take (be16 lenHi lenLo).toNat }
    else none
  | _ => none

/-! ### The command code demultiplexer's decode -/

/-- The command byte selects the instruction by all eight bits (30_encoding.md R77; 42_dispatcher.md
R160). -/
def demux (r : FrameFields) : Instr :=
  if r.command = 0x01 then .queryProductInfo r.version r.sequence r.payload
  else if r.command = 0x02 then .syncNetworkStatus r.version r.sequence r.payload
  else if r.command = 0x20 then .queryNetworkStatus r.version r.sequence r.payload
  else if r.command = 0x03 then .resetModuleInbound r.version r.sequence r.payload
  else .unrecognizedCmd r.version r.sequence r.command r.payload

/-- The reason a byte sequence is no valid frame, named by the first check of R70, R71, R75 and R76 that
fails. -/
def frameError (f : List Byte) : DecodeError :=
  match f with
  | h0 :: h1 :: _ :: _ :: _ :: _ :: lenHi :: lenLo :: _ :: _ =>
    if h0 = hdr0 ∧ h1 = hdr1 then
      if f.length = frameLength (be16 lenHi lenLo).toNat then
        .badChecksum (cks f.dropLast) (f.getLast?.getD 0)
      else .badLength f.length (frameLength (be16 lenHi lenLo).toNat)
    else .badHeader h0 h1
  | _ => .frameTooShort f.length

/-- The frame decoder: a complete, header-checked, valid frame is the instruction of its command byte. -/
def decodeFrame (f : List Byte) : Except DecodeError Instr :=
  match deserialize f with
  | some r => if validate f then .ok (demux r) else .error (frameError f)
  | none => .error (frameError f)

/-! ### The host-op word -/

/-- One row of the host-op table (30_encoding.md R83): a word `w` is the row's when
`w &&& maskBits = matchBits`. -/
structure HostOpRow where
  matchBits : Half
  maskBits  : Half
  event     : Half → Instr

/-- R83's table. `data` is bits 7:0 and `d` is bit 8 (R82). -/
def hostOpRows : List HostOpRow :=
  [ { matchBits := 0x1000, maskBits := 0xFFFF, event := fun _ => .setup },
    { matchBits := 0x2000, maskBits := 0xFF00, event := fun w => .rxByte (lo8 w) },
    { matchBits := 0x3000, maskBits := 0xFEFF, event := fun w => .pollCheck (w.getLsbD 8) },
    { matchBits := 0x4000, maskBits := 0xFFFF, event := fun _ => .resetRestart },
    { matchBits := 0x5000, maskBits := 0xFFFF, event := fun _ => .leaveRejoin },
    { matchBits := 0x6000, maskBits := 0xFFFF, event := fun _ => .dump } ]

/-- The word belongs to the row (R83). -/
def HostOpRow.takes (row : HostOpRow) (w : Half) : Bool := w &&& row.maskBits == row.matchBits

/-- The host-op decoder; a word of no row is refused by name (43_host_ops.md R198). -/
def decodeHostWord (w : Half) : Except DecodeError Instr :=
  match hostOpRows.find? (·.takes w) with
  | some row => .ok (row.event w)
  | none => .error (.reservedHostOp w)

/-- Either decoder, by the kind of encoding. -/
def decode : Encoding → Except DecodeError Instr
  | .hostWord w => decodeHostWord w
  | .frame f => decodeFrame f

/-! ### The encoder -/

/-- Everything of a frame before its checksum (R70): "header bytes, fixed version byte, sequence number as
two big-endian bytes, command byte, payload length as two big-endian bytes, payload bytes". -/
def frameBody (r : FrameFields) : List Byte :=
  [hdr0, hdr1, r.version, hi8 r.sequence, lo8 r.sequence, r.command,
   hi8 (BitVec.ofNat 16 r.payload.length), lo8 (BitVec.ofNat 16 r.payload.length)] ++ r.payload

/-- The whole frame (R70, R76). -/
def encodeFrame (r : FrameFields) : List Byte := frameBody r ++ [cks (frameBody r)]

/-- The host-op word of RX_BYTE (R83). -/
def rxWord (data : Byte) : Half := 0x2000 ||| data.setWidth 16

/-- The host-op word of POLL_CHECK (R83). -/
def pollWord (due : Bool) : Half := if due then 0x3100 else 0x3000

/-- The words of an instruction: for a host operation its host-op word (R83), for a frame command its
whole wire frame (R70). -/
def encode : Instr → Encoding
  | .queryProductInfo v q p => .frame (encodeFrame { version := v, sequence := q, command := 0x01, payload := p })
  | .syncNetworkStatus v q p => .frame (encodeFrame { version := v, sequence := q, command := 0x02, payload := p })
  | .resetModuleInbound v q p => .frame (encodeFrame { version := v, sequence := q, command := 0x03, payload := p })
  | .queryNetworkStatus v q p => .frame (encodeFrame { version := v, sequence := q, command := 0x20, payload := p })
  | .unrecognizedCmd v q c p => .frame (encodeFrame { version := v, sequence := q, command := c, payload := p })
  | .setup => .hostWord 0x1000
  | .rxByte data => .hostWord (rxWord data)
  | .pollCheck due => .hostWord (pollWord due)
  | .resetRestart => .hostWord 0x4000
  | .leaveRejoin => .hostWord 0x5000
  | .dump => .hostWord 0x6000

/-! ### The opcode table's numbering -/

/-- The frame a `frame_cmd` row stands for when its table bits are the command byte and every operand
byte (version, sequence, length) is zero: the fixed header and the checksum are what R70 requires of it
(LOG 9). -/
def tableFrame (command : Byte) : List Byte :=
  encodeFrame { version := 0x00, sequence := 0x0000, command := command, payload := [] }

/-- The instruction the decoders read from a table row's bits: a row of one byte is a frame command byte
(format `frame_cmd`), a row of two bytes is a host-op word (format `host_op`); there is no wider row. -/
def decodeTableWord (nbits w : Nat) : Option Instr :=
  if nbits ≤ 8 then (decodeFrame (tableFrame (BitVec.ofNat 8 w))).toOption
  else if nbits ≤ 16 then (decodeHostWord (BitVec.ofNat 16 w)).toOption
  else none

end Sys2Proof
end

