-- ==== Sys2Proof/Config.lean ====
section
/-! DEFINITION. The configuration of the block (00_scope.md R7, 10_state.md R20): what is fixed when the
block is instantiated. A parameter R7 calls `OPEN` is an opaque constant with no body, so nothing in Lean
can evaluate it or prove a value of it (LOG 3). The wire constants and the other decided values of R7 stand
beside the operations that use them: Decode.lean and Machine/. -/

namespace Sys2Proof

/-- The configuration R20 names: `PRODUCT_INFO`, `POLL_INTERVAL`, `LABEL_TEXT` and `SEQ_INIT`. The two
bounds are carried as proofs, so that a configuration breaking one cannot be built (R108, D10, D4). -/
structure Config where
  /-- `PRODUCT_INFO`, the product-identity payload (R7, R161). -/
  productInfo : List Byte
  /-- `POLL_INTERVAL`, reported by DUMP (R7, R196) and compared by the optional timer (R231). -/
  pollInterval : Nat
  /-- `SEQ_INIT`, the counter value SETUP writes (R7, R24). -/
  seqInit : Half
  /-- `LABEL_TEXT[0]`. -/
  notConnectedText : String
  /-- `LABEL_TEXT[2]`. -/
  networkErrorText : String
  /-- `LABEL_TEXT[3]`. -/
  pairingText : String
  /-- `LABEL_TEXT[4]`. -/
  unknownText : String
  /-- R108: the only size limit. -/
  productInfo_le : productInfo.length ≤ 65535
  /-- D4: `SEQ_INIT` lies in `0..0xFFF0`. -/
  seqInit_le : seqInit ≤ 0xFFF0
deriving DecidableEq, Repr

/-- Why a configuration is refused (R108, D10, D4). Raised by `Config.build`, before any step; safe. -/
inductive ConfigError where
  /-- `PRODUCT_INFO` is longer than 65535 bytes (R108, 93 item 5). -/
  | productInfoTooLong (length : Nat)
  /-- `SEQ_INIT` lies above `0xFFF0` (93 item 14). -/
  | seqInitOutOfRange (value : Half)
deriving DecidableEq, Repr

/-- Builds a configuration, refusing one that breaks a bound: "A model refuses a configuration that
breaks it" (R108). -/
def Config.build (productInfo : List Byte) (pollInterval : Nat) (seqInit : Half)
    (notConnected networkError pairing unknown : String) : Except ConfigError Config :=
  if hp : productInfo.length ≤ 65535 then
    if hs : seqInit ≤ 0xFFF0 then
      .ok { productInfo := productInfo, pollInterval := pollInterval, seqInit := seqInit,
            notConnectedText := notConnected, networkErrorText := networkError,
            pairingText := pairing, unknownText := unknown,
            productInfo_le := hp, seqInit_le := hs }
    else .error (.seqInitOutOfRange seqInit)
  else .error (.productInfoTooLong productInfo.length)

/-- The length of `PRODUCT_INFO`: `OPEN` in 0..65535 (R7, D10). LOG 3. -/
opaque Config.productInfoLength : Fin 65536

/-- Byte `i` of `PRODUCT_INFO`: `OPEN` (R7, D10). LOG 3. -/
opaque Config.productInfoByte : Nat → Byte

/-- `POLL_INTERVAL`: `OPEN` (R7, D16). LOG 3. -/
opaque Config.pollIntervalSetting : Nat

/-- `LABEL_TEXT[n]` for the labels 0, 2, 3 and 4: `OPEN` (R7, D7). LOG 3. -/
opaque Config.labelTextSetting : Nat → String

/-- The configuration of the block that stands in `State.reset`: the `OPEN` parameters are the opaque
constants above, `SEQ_INIT` is the spec's `0x0000` (R7, D4). -/
def Config.installed : Config where
  productInfo := (List.range Config.productInfoLength.val).map Config.productInfoByte
  pollInterval := Config.pollIntervalSetting
  seqInit := 0x0000
  notConnectedText := Config.labelTextSetting 0
  networkErrorText := Config.labelTextSetting 2
  pairingText := Config.labelTextSetting 3
  unknownText := Config.labelTextSetting 4
  productInfo_le := by
    have h := Config.productInfoLength.isLt
    simp only [List.length_map, List.length_range]
    omega
  seqInit_le := by decide

end Sys2Proof
end

