-- ==== Sys2Proof/Machine/State.lean ====
section
/-! DEFINITION. The state. `Block` is the block's complete state exactly as 10_state.md R20 lists it.
`State` closes the system around it: the configuration the step takes as a parameter (R20), the host-op
words presented and not yet taken (R29), and the output events emitted (R9, R30, R31). LOG 1. -/

namespace Sys2Proof.Machine

/-- The five status labels (42_dispatcher.md R164); their `status` port values are `portValue`. -/
inductive StatusLabel where
  | notConnected
  | connected
  | networkError
  | pairing
  | unknown
deriving DecidableEq, Repr

/-- A diagnostic event with its `info` (60_exceptions.md R221). -/
inductive Diag where
  /-- Code 1: the two header bytes that were checked (R222). -/
  | headerMismatch (b0 b1 : Byte)
  /-- Code 2: the computed and the received checksum byte (R223). -/
  | checksumMismatch (computed received : Byte)
  /-- Code 3: the command code, `0x02` or `0x20` (R224). -/
  | emptyStatus (command : Byte)
  /-- Code 4: the command code (R225). -/
  | unrecognizedCmd (command : Byte)
  /-- Code 5: `POLL_INTERVAL` (R196). -/
  | dumpReport (interval : Nat)
deriving DecidableEq, Repr

/-- An output event (10_state.md R31): the closed type `Out`. -/
inductive Out where
  | tx (frame : List Byte)
  | status (label : StatusLabel)
  | diag (d : Diag)
deriving DecidableEq, Repr

/-- The block's one storage space (20_memory.md R50): the byte of index `i` is the list's element `i`, so
the list is its own canonical form (LOG 7). -/
abbrev Memory := List Byte

/-- The block's complete state (R20): "Nothing else is state". -/
structure Block where
  /-- The reassembly buffer (R22). -/
  buf : Memory
  /-- The sequence counter (R24). -/
  seqCtr : Half
  /-- The initialization flag (R25). -/
  initFlag : Bool
deriving DecidableEq, Repr

/-- The block and what surrounds it. -/
structure State where
  /-- The configuration (R7, R20), fixed when the block is instantiated; no operation writes it (R27). -/
  cfg : Config
  /-- The block's state; `none` is `Unset`, the block before its first SETUP (R20, D24). -/
  block : Option Block
  /-- The model's own field: host-op words the host has presented, oldest first (R29, R82; LOG 1). -/
  input : List Half
  /-- The output events emitted, oldest first, across all ports (R30, R31, R59; LOG 4). -/
  out : List Out
deriving DecidableEq, Repr

/-- Why the machine stops. The block itself has no fault (R220); no run from SETUP reaches either. -/
inductive Fault where
  /-- Raised by `bufRead` for an index at or past the buffer's length (20_memory.md R52;
  93_implementation_defined.md item 11). Safe: the model stops. -/
  | bufReadOutOfRange (index length : Nat)
  /-- Raised by `bufAppend` when the buffer already holds `BUF_CAP` bytes: index `BUF_CAP` does not exist
  (R50), and R51 and R140 say that no append meets it. Safe: the model stops. LOG 7. -/
  | bufferFull
deriving DecidableEq, Repr

/-- Why the machine gives an event no meaning. -/
inductive Refusal where
  /-- Raised by `exec` for an instruction with no meaning yet; no arm does. Safe. -/
  | notModelled (mnemonic : String)
  /-- Raised by every event but SETUP in `Unset` (43_host_ops.md R197). Safe. -/
  | notSetUp
  /-- Raised by `step` for a host-op word that matches no row of R83 (R198). Safe. -/
  | reservedHostOp (w : Half)
  /-- Raised by `completeFrame` for a valid-checksum buffer that is no header-checked frame of `9 + L`
  bytes: Deserialize has no meaning there (R111; 93 item 12). No run from SETUP reaches it. Safe. LOG 8. -/
  | notACompleteFrame
deriving DecidableEq, Repr

/-- The machine right after reset, which is the SETUP event (70_reset_and_hazards.md R250; 10_state.md
R32): buffer empty, counter `SEQ_INIT`, flag false, no output event; nothing presented yet (LOG 2, LOG 5). -/
def State.reset : State where
  cfg := Config.installed
  block := some { buf := [], seqCtr := 0x0000, initFlag := false }
  input := []
  out := []

end Sys2Proof.Machine
end

