-- ==== Sys2Proof/Machine/Ops.lean ====
section
/-! DEFINITION. The named operations over the state: the reassembly buffer (20_memory.md R51 to R53), the
event ports (00_scope.md R9, 10_state.md R30), the `Unset` guard (43_host_ops.md R197), and `raiseDiag`, the
one shared operation for every error the spec names. The block has no trap entry and no trap return
(60_exceptions.md R220, R228): raising a diagnostic is all that "taking an exception" is here. -/

namespace Sys2Proof.Machine

/-- What a step of this machine answers. -/
abbrev Answer := Host.Outcome State Fault Refusal

/-- The next state, where there is one. -/
def next? : Answer → Option State
  | .next s => some s
  | .fault _ => none
  | .refused _ => none

/-! ### Guards -/

/-- Continues with the block's state, or refuses in `Unset`: "every event other than SETUP is
`refuse(NotSetUp)`" (R197). -/
def whenSetUp (s : State) (run : Block → Answer) : Answer :=
  match s.block with
  | none => .refused .notSetUp
  | some b => run b

/-- Continues with a value, or stops with the fault that took its place. -/
def orFault {α : Type} (r : Except Fault α) (run : α → Answer) : Answer :=
  match r with
  | .error f => .fault f
  | .ok a => run a

/-! ### The reassembly buffer -/

/-- `BUF_CAP`: the largest frame, `8 + 65535 + 1` bytes (R7, R22; D3). -/
abbrev bufCap : Nat := 65544

/-- The buffer is a legal content of the storage space: `0 <= len(buf) <= BUF_CAP` (R20, R50). -/
def Memory.wf (m : Memory) : Bool := m.length ≤ bufCap

/-- `BufAppend(b)` (R51): `buf <- buf ++ [b]`, at an index that exists. -/
def bufAppend (data : Byte) (b : Block) : Except Fault Block :=
  if b.buf.length < bufCap then .ok { b with buf := b.buf ++ [data] } else .error .bufferFull

/-- `BufRead(i)` (R52). -/
def bufRead (m : Memory) (i : Nat) : Except Fault Byte :=
  match m[i]? with
  | some x => .ok x
  | none => .error (.bufReadOutOfRange i m.length)

/-- `BufClear()` (R53). -/
def bufClear (b : Block) : Block := { b with buf := [] }

/-! ### State updates -/

/-- The block's state is `b`. -/
def State.withBlock (s : State) (b : Block) : State := { s with block := some b }

/-- The host presents words after those already presented, in order (R29, R59). -/
def State.present (s : State) (ws : List Half) : State := { s with input := s.input ++ ws }

/-- `Emit(port, value)`: "appends one event to the named output port, in program order" (R9). -/
def State.emit (s : State) (o : Out) : State := { s with out := s.out ++ [o] }

/-- `raise Diag(code, info)`: `Emit(diag, ...)`. It "does not transfer control, abort the step or change
any state" (R9, R220). -/
def State.raiseDiag (s : State) (d : Diag) : State := s.emit (.diag d)

/-! ### Ports -/

/-- The frames of the `tx` port, in order (R30). -/
def txPort (out : List Out) : List (List Byte) :=
  out.filterMap fun o => match o with
    | .tx f => some f
    | .status _ => none
    | .diag _ => none

/-- The labels of the `status` port, in order (R30). -/
def statusPort (out : List Out) : List StatusLabel :=
  out.filterMap fun o => match o with
    | .tx _ => none
    | .status l => some l
    | .diag _ => none

/-- The events of the `diag` port, in order (R30). -/
def diagPort (out : List Out) : List Diag :=
  out.filterMap fun o => match o with
    | .tx _ => none
    | .status _ => none
    | .diag d => some d

/-- The `init_flag` level port: "the current value of `init_flag`" (R30); in `Unset` there is none. -/
def State.initFlagPort (s : State) : Option Bool := s.block.map (·.initFlag)

/-- The severities of 60_exceptions.md R221. -/
inductive Severity where
  | warning
  | lowerThanWarning
  | informational
deriving DecidableEq, Repr

/-- The diagnostic code (R221). -/
def Diag.code : Diag → Nat
  | .headerMismatch _ _ => 1
  | .checksumMismatch _ _ => 2
  | .emptyStatus _ => 3
  | .unrecognizedCmd _ => 4
  | .dumpReport _ => 5

/-- The severity of a diagnostic (R221). No rule reads it. -/
def Diag.severity : Diag → Severity
  | .headerMismatch _ _ => .warning
  | .checksumMismatch _ _ => .warning
  | .emptyStatus _ => .warning
  | .unrecognizedCmd _ => .lowerThanWarning
  | .dumpReport _ => .informational

end Sys2Proof.Machine
end

