-- ==== Sys2Proof/Machine/Codec.lean ====
section
/-! DEFINITION. The stateful half of the frame codec (40_codec.md): Serialize with its sequence selection
and the counter's wrap, and sending the frame. The stateless half is Decode.lean. -/

namespace Sys2Proof.Machine

/-- `SENTINEL`: "use auto-increment counter" (R7, R73, R102). -/
abbrev sentinel : Half := 0xFFFF

/-- `SEQ_WRAP`: the highest value the counter assigns (R7, R104; D5). -/
abbrev seqWrap : Half := 0xFFF0

/-- `next(c)`, the wrap function (R104). -/
def nextSeq (c : Half) : Half := if seqWrap ≤ c then 0x0000 else c + 1

/-- `SeqSelect(sq)` (R102): the sequence number written and the block after it. The counter's value before
it advances is the one written; an explicit number leaves it untouched (R103). -/
def seqSelect (sq : Half) (b : Block) : Half × Block :=
  if sq = sentinel then (b.seqCtr, { b with seqCtr := nextSeq b.seqCtr }) else (sq, b)

/-- `Serialize(cmd, payload, seq_or_sentinel)` (R101): the frame and the block after it. -/
def serialize (cmd : Byte) (payload : List Byte) (sq : Half) (b : Block) : List Byte × Block :=
  (encodeFrame { version := versionByte, sequence := (seqSelect sq b).1, command := cmd, payload := payload },
   (seqSelect sq b).2)

/-- `f <- Serialize(cmd, payload, sq); Emit(tx, f)`: the frame leaves whole, as one event (R30; D21). -/
def sendFrame (cmd : Byte) (payload : List Byte) (sq : Half) (b : Block) (s : State) : State :=
  (s.withBlock (serialize cmd payload sq b).2).emit (.tx (serialize cmd payload sq b).1)

end Sys2Proof.Machine
end

