-- ==== Sys2Proof/Machine/Flags.lean ====
section
/-! DEFINITION. What the block derives from its state to choose a behaviour: the reassembler phase, a
function of the buffer's length (10_state.md R23), and the poll gate, the one reader of `init_flag` (R25). -/

namespace Sys2Proof.Machine

/-- The reassembler's phases (R23). -/
inductive Phase where
  | searching
  | headerWait
  | accumulating
deriving DecidableEq, Repr

/-- `phase(buf)` (R23). -/
def phase (m : Memory) : Phase :=
  if m.length = 0 then .searching
  else if m.length = 1 then .headerWait
  else .accumulating

/-- `init_flag and due` (43_host_ops.md R191). -/
def pollArmed (b : Block) (due : Bool) : Bool := b.initFlag && due

end Sys2Proof.Machine
end

