-- ==== Sys2Proof/Machine/Operands.lean ====
section
/-! DEFINITION. The operand forms. A host operation's operands are decoded with its word (30_encoding.md
R82); of a frame, the only operand taken from the payload is the status code (R78, R80) with its label
(42_dispatcher.md R164). -/

namespace Sys2Proof.Machine

/-- The status code of a status frame: payload byte 0, the bytes after it ignored; none when the payload
is empty (R78, R163; D8). -/
def statusOperand (payload : List Byte) : Option Byte := payload.head?

/-- `Label(s)`, total over all 256 byte values (R164). -/
def labelOf (code : Byte) : StatusLabel :=
  if code = 0x00 then .notConnected
  else if code = 0x01 then .connected
  else if code = 0x02 then .networkError
  else if code = 0x03 then .pairing
  else .unknown

/-- The `status` port's 3-bit value of a label (R30, R164). -/
def StatusLabel.portValue : StatusLabel → BitVec 3
  | .notConnected => 0
  | .connected => 1
  | .networkError => 2
  | .pairing => 3
  | .unknown => 4

/-- `LABEL_TEXT`: open but for label 1 (R7, R164). Presentation only: no event carries it (D7). -/
def labelText (c : Config) : StatusLabel → String
  | .notConnected => c.notConnectedText
  | .connected => "CONNECTED"
  | .networkError => c.networkErrorText
  | .pairing => c.pairingText
  | .unknown => c.unknownText

/-- The mode byte of RESET_RESTART (30_encoding.md R79). -/
abbrev modeResetRestart : Byte := 0x00

/-- The mode byte of LEAVE_REJOIN (R79). -/
abbrev modeLeaveRejoin : Byte := 0x01

end Sys2Proof.Machine
end

