-- ==== Sys2Proof/Machine/HostOps.lean ====
section
/-! DEFINITION. The host operations other than RX_BYTE (43_host_ops.md). None of them but SETUP touches
the buffer (R199). -/

namespace Sys2Proof.Machine

/-- The block right after SETUP (10_state.md R32). -/
def blockAfterSetup (c : Config) : Block :=
  { buf := [], seqCtr := c.seqInit, initFlag := false }

/-- SETUP (R190): the full reset of the block, from every state, `Unset` included; no output. -/
def execSetup (s : State) : Answer := .next (s.withBlock (blockAfterSetup s.cfg))

/-- The poll itself: `Serialize(0x20, [], 0xFFFF)` on `tx` (R191; empty payload D11). -/
def sendPoll (b : Block) (s : State) : State := sendFrame 0x20 [] sentinel b s

/-- POLL_CHECK(due) (R191): a poll when the flag is set and the interval has elapsed; otherwise nothing. -/
def execPollCheck (due : Bool) (s : State) : Answer :=
  whenSetUp s fun b => if pollArmed b due then .next (sendPoll b s) else .next s

/-- The outbound Reset Module frame with its mode byte (R79, R193, R194). -/
def sendReset (mode : Byte) (s : State) : Answer :=
  whenSetUp s fun b => .next (sendFrame 0x03 [mode] sentinel b s)

/-- RESET_RESTART (R193): `buf` and `init_flag` unchanged (R195). -/
def execResetRestart (s : State) : Answer := sendReset modeResetRestart s

/-- LEAVE_REJOIN (R194): `buf` and `init_flag` unchanged (R195). -/
def execLeaveRejoin (s : State) : Answer := sendReset modeLeaveRejoin s

/-- DUMP (R196): reports the configured poll interval, armed or not. -/
def execDump (s : State) : Answer :=
  whenSetUp s fun _ => .next (s.raiseDiag (.dumpReport s.cfg.pollInterval))

end Sys2Proof.Machine
end

