-- ==== Sys2Proof/Machine/FrameCommands.lean ====
section
/-! DEFINITION. The command dispatcher (42_dispatcher.md): the meanings of the five frame commands and
`dispatch`, which selects one by the command byte. A command runs inside the RX_BYTE step that completes
its frame (41_reassembler.md R133). -/

namespace Sys2Proof.Machine

/-- `PI_RESP_CMD`, the command code of the product-info response (R7, R161; D9). -/
abbrev piRespCmd : Byte := 0x01

/-- `NetworkStatus(r)` (R163, R165): an empty payload raises EMPTY_STATUS and nothing else; otherwise the
label is published, every time. -/
def networkStatus (command : Byte) (payload : List Byte) (s : State) : Answer :=
  whenSetUp s fun _ =>
    match statusOperand payload with
    | none => .next (s.raiseDiag (.emptyStatus command))
    | some code => .next (s.emit (.status (labelOf code)))

/-- `Unrecognized(r)` (R167): logged and dropped, no state change. -/
def unrecognized (command : Byte) (s : State) : Answer :=
  whenSetUp s fun _ => .next (s.raiseDiag (.unrecognizedCmd command))

/-- QUERY_PRODUCT_INFO (R161): the response carries the request's sequence number, and the flag becomes
true. A request carrying the sentinel makes Serialize take and advance the counter (R162). The version and
the request's payload are ignored (R161, R168). -/
def execQueryProductInfo (_version : Byte) (sequence : Half) (_payload : List Byte) (s : State) : Answer :=
  whenSetUp s fun b =>
    .next (sendFrame piRespCmd s.cfg.productInfo sequence { b with initFlag := true } s)

/-- SYNC_NETWORK_STATUS, command `0x02` (R163). Version and sequence are ignored (R168, R169). -/
def execSyncNetworkStatus (_version : Byte) (_sequence : Half) (payload : List Byte) (s : State) : Answer :=
  networkStatus 0x02 payload s

/-- QUERY_NETWORK_STATUS, command `0x20` (R165): handled as R163, with no check against a poll. -/
def execQueryNetworkStatus (_version : Byte) (_sequence : Half) (payload : List Byte) (s : State) : Answer :=
  networkStatus 0x20 payload s

/-- RESET_MODULE_INBOUND, command `0x03` received (R166): no inbound handler, so the unrecognized path. -/
def execResetModuleInbound (_version : Byte) (_sequence : Half) (_payload : List Byte) (s : State) : Answer :=
  unrecognized 0x03 s

/-- UNRECOGNIZED_CMD, every other command byte (R167). -/
def execUnrecognizedCmd (_version : Byte) (_sequence : Half) (command : Byte) (_payload : List Byte)
    (s : State) : Answer :=
  unrecognized command s

/-- `Dispatch(r)` (R160): the case over the whole command byte. It reads only `r`. -/
def dispatch (r : FrameFields) (s : State) : Answer :=
  if r.command = 0x01 then execQueryProductInfo r.version r.sequence r.payload s
  else if r.command = 0x02 then execSyncNetworkStatus r.version r.sequence r.payload s
  else if r.command = 0x20 then execQueryNetworkStatus r.version r.sequence r.payload s
  else if r.command = 0x03 then execResetModuleInbound r.version r.sequence r.payload s
  else execUnrecognizedCmd r.version r.sequence r.command r.payload s

end Sys2Proof.Machine
end

