-- ==== Sys2Proof/Machine/Reassembler.lean ====
section
/-! DEFINITION. The stream reassembler (41_reassembler.md): one behaviour per phase and the completion of
a frame, and RX_BYTE, which is made of them. -/

namespace Sys2Proof.Machine

/-- Searching (R130): only `0x55` is kept; any other byte is discarded with no output. -/
def rxSearching (data : Byte) (b : Block) (s : State) : Answer :=
  if data = hdr0 then orFault (bufAppend data b) fun b' => .next (s.withBlock b')
  else .next s

/-- HeaderWait (R131): the byte is appended, both header bytes are checked, and on a mismatch the warning
is raised and the buffer cleared; the second byte is not examined again (R134). -/
def rxHeaderWait (data : Byte) (b : Block) (s : State) : Answer :=
  orFault (bufAppend data b) fun b' =>
    orFault (bufRead b'.buf 0) fun x =>
      orFault (bufRead b'.buf 1) fun y =>
        if x = hdr0 ∧ y = hdr1 then .next (s.withBlock b')
        else .next ((s.raiseDiag (.headerMismatch x y)).withBlock (bufClear b'))

/-- `CompleteFrame()` (R133): the buffer is cleared on either outcome; a valid frame is deserialized and
dispatched, an invalid one raises CHECKSUM_MISMATCH and is dropped whole (R135). -/
def completeFrame (b : Block) (s : State) : Answer :=
  if validate b.buf then
    match deserialize b.buf with
    | some r => dispatch r (s.withBlock (bufClear b))
    | none => .refused .notACompleteFrame
  else
    orFault (bufRead b.buf (b.buf.length - 1)) fun received =>
      .next ((s.withBlock (bufClear b)).raiseDiag (.checksumMismatch (cks b.buf.dropLast) received))

/-- Accumulating (R132): the byte is appended; from the 8th byte on the length field is readable, and the
frame completes when the buffer holds `8 + L + 1` bytes. -/
def rxAccumulating (data : Byte) (b : Block) (s : State) : Answer :=
  orFault (bufAppend data b) fun b' =>
    if prefixLength ≤ b'.buf.length then
      orFault (bufRead b'.buf 6) fun lenHi =>
        orFault (bufRead b'.buf 7) fun lenLo =>
          if b'.buf.length = frameLength (be16 lenHi lenLo).toNat then completeFrame b' s
          else .next (s.withBlock b')
    else .next (s.withBlock b')

/-- RX_BYTE (R138): the behaviour of the buffer's phase. -/
def execRxByte (data : Byte) (s : State) : Answer :=
  whenSetUp s fun b =>
    match phase b.buf with
    | .searching => rxSearching data b s
    | .headerWait => rxHeaderWait data b s
    | .accumulating => rxAccumulating data b s

end Sys2Proof.Machine
end

