-- ==== Sys2Proof/Machine/Dispatch.lean ====
section
/-! DEFINITION. One arm per instruction of spec/opcode_table.json, each one call of its meaning. -/

namespace Sys2Proof.Machine

def exec (i : Instr) (s : State) : Host.Outcome State Fault Refusal :=
  match i with
  | .queryProductInfo v q p => Sys2Proof.Machine.execQueryProductInfo v q p s
  | .syncNetworkStatus v q p => Sys2Proof.Machine.execSyncNetworkStatus v q p s
  | .resetModuleInbound v q p => Sys2Proof.Machine.execResetModuleInbound v q p s
  | .queryNetworkStatus v q p => Sys2Proof.Machine.execQueryNetworkStatus v q p s
  | .unrecognizedCmd v q c p => Sys2Proof.Machine.execUnrecognizedCmd v q c p s
  | .setup => Sys2Proof.Machine.execSetup s
  | .rxByte data => Sys2Proof.Machine.execRxByte data s
  | .pollCheck due => Sys2Proof.Machine.execPollCheck due s
  | .resetRestart => Sys2Proof.Machine.execResetRestart s
  | .leaveRejoin => Sys2Proof.Machine.execLeaveRejoin s
  | .dump => Sys2Proof.Machine.execDump s

end Sys2Proof.Machine
end

