-- ==== Sys2Proof/Machine/Fetch.lean ====
section
/-! DEFINITION. Taking the next event. The block fetches no instruction (20_memory.md R61): the host
presents events one at a time and the block takes them in that order (00_scope.md R10; 10_state.md R29). -/

namespace Sys2Proof.Machine

/-- The oldest word presented, and the state once the block has taken it; none when nothing is presented. -/
def fetchEvent (s : State) : Option (Half × State) :=
  match s.input with
  | [] => none
  | w :: ws => some (w, { s with input := ws })

/-- The word is the next one the block takes. -/
def State.withNextWord (s : State) (w : Half) : State := { s with input := w :: s.input }

/-- The frame of `command` is received but for its last byte, which is the next event: the buffer holds
the bytes before it (a block in `Unset` is set up for this), so that the very next step completes the frame
and runs its command (LOG 9). -/
def State.withTableFrame (s : State) (command : Byte) : State :=
  let b := s.block.getD { buf := [], seqCtr := s.cfg.seqInit, initFlag := false }
  ((s.withBlock { b with buf := (tableFrame command).dropLast }).withNextWord
    (rxWord (cks (tableFrame command).dropLast)))

/-- `decodeTableWord`'s instruction made the next one: a `frame_cmd` row as a frame about to complete, a
`host_op` row as the next word. -/
def placeTableWord (s : State) (nbits w : Nat) : State :=
  if nbits ≤ 8 then s.withTableFrame (BitVec.ofNat 8 w) else s.withNextWord (BitVec.ofNat 16 w)

end Sys2Proof.Machine
end

