-- ==== Sys2Proof/Machine/Step.lean ====
section
/-! DEFINITION. One step: one input event (00_scope.md R10). With no event presented nothing changes
(41_reassembler.md R136; 60_exceptions.md R234; LOG 6). -/

namespace Sys2Proof.Machine

/-- Takes the next word, decodes it, and runs its event; a word of no row is refused (43_host_ops.md
R198), before the `Unset` guard (LOG 12). -/
def step (s : State) : Host.Outcome State Fault Refusal :=
  match fetchEvent s with
  | none => .next s
  | some (w, s') =>
    match decodeHostWord w with
    | .error _ => .refused (.reservedHostOp w)
    | .ok i => exec i s'

/-- The state in which the next step runs the instruction `decodeTableWord nbits w` (LOG 2, LOG 9). -/
def State.withFetchWord (s : State) (nbits w : Nat) : State := placeTableWord s nbits w

end Sys2Proof.Machine
end

