-- ==== Sys2Proof/Machine/PollTimer.lean ====
section
/-! DEFINITION. The optional deterministic poll timer (60_exceptions.md R231; 10_state.md R28), as a
machine of its own over `State`. Under the normative model the due bit is an operand of POLL_CHECK (R230)
and the register `last_poll` does not exist (R28), so neither `State` nor `exec` knows of this file. What the
source leaves open is an argument here (R7, D16; LOG 11). -/

namespace Sys2Proof.Machine

/-- `POLL_CMP`: the comparison of the elapsed time with the interval, default `>=` (R231). -/
inductive PollCmp where
  | atLeast
  | moreThan
deriving DecidableEq, Repr

/-- The refinement's open parameters; `timeW` is `TIME_W` (R7, R231). -/
structure TimerConfig (timeW : Nat) where
  /-- `LAST_POLL_INIT`. -/
  lastPollInit : BitVec timeW
  /-- `POLL_CMP`. -/
  cmp : PollCmp := .atLeast
  /-- Whether `last_poll` is updated on a due check while `init_flag` is false; R231's own pseudocode does
  not, and "the source fixes none of this". -/
  recordUnarmed : Bool := false
deriving DecidableEq, Repr

/-- The block with its poll-timer register (R28). -/
structure TimedState (timeW : Nat) where
  base : State
  /-- `last_poll`: "the time reading at which the last poll was sent". -/
  lastPoll : BitVec timeW
deriving DecidableEq, Repr

/-- The input events with the poll check's draw replaced by a time reading (R231). -/
inductive TimedEvent (timeW : Nat) where
  | setup
  | rxByte (data : Byte)
  | pollCheckT (now : BitVec timeW)
  | resetRestart
  | leaveRejoin
  | dump
deriving DecidableEq, Repr

/-- `due <- ((now - last_poll) mod 2^TIME_W) >= POLL_INTERVAL`, with the comparison of `POLL_CMP` (R231). -/
def dueAt {timeW : Nat} (tc : TimerConfig timeW) (now : BitVec timeW) (t : TimedState timeW) : Bool :=
  match tc.cmp with
  | .atLeast => t.base.cfg.pollInterval ≤ (now - t.lastPoll).toNat
  | .moreThan => t.base.cfg.pollInterval < (now - t.lastPoll).toNat

/-- `POLL_CHECK_T(now)` (R231). -/
def execPollCheckT {timeW : Nat} (tc : TimerConfig timeW) (now : BitVec timeW) (t : TimedState timeW) :
    Host.Outcome (TimedState timeW) Fault Refusal :=
  match t.base.block with
  | none => .refused .notSetUp
  | some b =>
    if pollArmed b (dueAt tc now t) then .next { base := sendPoll b t.base, lastPoll := now }
    else if dueAt tc now t && tc.recordUnarmed then .next { t with lastPoll := now }
    else .next t

/-- An event that is no poll check, on the block alone; `last_poll` becomes what is given. -/
def liftTimed {timeW : Nat} (lastPoll : BitVec timeW) (a : Answer) :
    Host.Outcome (TimedState timeW) Fault Refusal :=
  match a with
  | .next s => .next { base := s, lastPoll := lastPoll }
  | .fault f => .fault f
  | .refused r => .refused r

/-- One event of the refined block: SETUP also sets `last_poll` (43_host_ops.md R190), the others are as in
the normative model. -/
def execTimed {timeW : Nat} (tc : TimerConfig timeW) (e : TimedEvent timeW) (t : TimedState timeW) :
    Host.Outcome (TimedState timeW) Fault Refusal :=
  match e with
  | .setup => liftTimed tc.lastPollInit (exec .setup t.base)
  | .rxByte data => liftTimed t.lastPoll (exec (.rxByte data) t.base)
  | .pollCheckT now => execPollCheckT tc now t
  | .resetRestart => liftTimed t.lastPoll (exec .resetRestart t.base)
  | .leaveRejoin => liftTimed t.lastPoll (exec .leaveRejoin t.base)
  | .dump => liftTimed t.lastPoll (exec .dump t.base)

/-- A run of the refined block. -/
def runTimed {timeW : Nat} (tc : TimerConfig timeW) :
    List (TimedEvent timeW) → TimedState timeW → Host.Outcome (TimedState timeW) Fault Refusal
  | [], t => .next t
  | e :: es, t =>
    match execTimed tc e t with
    | .next t' => runTimed tc es t'
    | .fault f => .fault f
    | .refused r => .refused r

/-- The refined block right after SETUP (10_state.md R32). -/
def TimedState.reset {timeW : Nat} (tc : TimerConfig timeW) : TimedState timeW :=
  { base := State.reset, lastPoll := tc.lastPollInit }

/-- The normative event is one the refined event may stand for: any due bit for a poll check, the same
event otherwise (R230, R231). -/
def TimedEvent.isInstanceOf {timeW : Nat} (e : TimedEvent timeW) (i : Instr) : Bool :=
  match e, i with
  | .setup, .setup => true
  | .rxByte data, .rxByte data' => data == data'
  | .pollCheckT _, .pollCheck _ => true
  | .resetRestart, .resetRestart => true
  | .leaveRejoin, .leaveRejoin => true
  | .dump, .dump => true
  | _, _ => false

end Sys2Proof.Machine
end

