-- ==== Sys2Proof/Machine/Run.lean ====
section
/-! DEFINITION. Runs (70_reset_and_hazards.md R260), drive passes (43_host_ops.md R192) and the trace
notation with its expansion (30_encoding.md R85). -/

namespace Sys2Proof.Machine

/-- The events `e1..em` one after another, each completing before the next (00_scope.md R10), stopping at
the first that has no next state. -/
def runEvents : List Instr → State → Answer
  | [], s => .next s
  | i :: is, s =>
    match exec i s with
    | .next s' => runEvents is s'
    | .fault f => .fault f
    | .refused r => .refused r

/-- One RX_BYTE per byte, in order (R85: `rx`). -/
def rxEvents (bytes : List Byte) : List Instr := bytes.map .rxByte

/-- The bytes received one at a time. -/
def receive (bytes : List Byte) (s : State) : Answer := runEvents (rxEvents bytes) s

/-- `drive [b1..bk] due` (R192): the available bytes, then one poll check. -/
def drivePass (bytes : List Byte) (due : Bool) : List Instr := rxEvents bytes ++ [.pollCheck due]

/-- One line of the trace notation (R85). -/
inductive TraceOp where
  | setup
  | rx (bytes : List Byte)
  | poll (due : Bool)
  | drive (bytes : List Byte) (due : Bool)
  | resetRestart
  | leaveRejoin
  | dump
deriving DecidableEq, Repr

/-- The events a line stands for (R85, R192). -/
def traceEvents : TraceOp → List Instr
  | .setup => [.setup]
  | .rx bytes => rxEvents bytes
  | .poll due => [.pollCheck due]
  | .drive bytes due => drivePass bytes due
  | .resetRestart => [.resetRestart]
  | .leaveRejoin => [.leaveRejoin]
  | .dump => [.dump]

/-- `F(seq, cmd, [payload])` (R85): the frame Serialize produces for those fields with version `0x02`. -/
def frameLiteral (seq : Half) (cmd : Byte) (payload : List Byte) : List Byte :=
  encodeFrame { version := versionByte, sequence := seq, command := cmd, payload := payload }

/-- The host-op words of events (R83); a frame command has none, its bytes are RX_BYTE events. -/
def hostWords (events : List Instr) : List Half :=
  events.filterMap fun i => match encode i with
    | .hostWord w => some w
    | .frame _ => none

/-- The host-op words of a trace (R85). -/
def traceWords (ops : List TraceOp) : List Half := hostWords (ops.flatMap traceEvents)

/-- What a run shows (R260): the final state and the output list. -/
structure Observation where
  final   : Option Block
  outputs : List Out
deriving DecidableEq, Repr

/-- The observation of the state a run ends in, for a run that began with no output emitted. -/
def observe (s : State) : Observation := { final := s.block, outputs := s.out }

end Sys2Proof.Machine
end

