-- ==== Sys2Proof/Safety.lean ====
section
/-! DEFINITION. What claims rest on: the invariants of 10_state.md R33, the order a host must keep
(70_reset_and_hazards.md R251), and what every transmitted frame must be. -/

namespace Sys2Proof.Machine

/-- I1 to I5 of R33, on the block's state. -/
abbrev Block.Inv (b : Block) : Prop :=
  (1 ≤ b.buf.length → b.buf[0]? = some hdr0) ∧
  (2 ≤ b.buf.length → b.buf[1]? = some hdr1) ∧
  (8 ≤ b.buf.length →
    b.buf.length < 9 + (be16 (b.buf.getD 6 0) (b.buf.getD 7 0)).toNat) ∧
  b.buf.length ≤ bufCap - 1 ∧
  b.seqCtr ≤ 0xFFF0

/-- R33 of a state: `Unset` holds no block, so nothing is asked of it (R20). -/
abbrev State.Inv (s : State) : Prop := ∀ b ∈ s.block, b.Inv

/-- The events are ones the host may present: SETUP first, and no frame command, which is no event of its
own (R251, R197; 30_encoding.md R82). -/
def admittedRun (events : List Instr) : Bool :=
  events.head? == some .setup && events.all fun i => !i.isFrameCommand

/-- What R70, R73, R75 and R106 ask of a transmitted frame: it is a complete frame with a right checksum,
version `0x02`, and a sequence number other than the sentinel. -/
def sentFrameOk (f : List Byte) : Bool :=
  validate f && (match deserialize f with
    | some r => r.version == versionByte && r.sequence != sentinel
    | none => false)

/-- No fault: the block has none (60_exceptions.md R220). -/
def noFault : Answer → Bool
  | .next _ => true
  | .fault _ => false
  | .refused _ => true

end Sys2Proof.Machine
end

