-- ==== Sys2Proof/Certificates/Slice0/Obligations.lean ====
section
/-! DEFINITION. The statements for the provers. Each docstring names the rule or the section of spec/ it
formalises. An equation `exec i s = .next t` with `t` written in full is at once the instruction's result,
its completion and its frame: every field of `State` and of `Block` that `t` does not name is unchanged. -/

open Sys2Proof Sys2Proof.Machine

/-! ### Encodings -/

/-- 30_encoding.md R82 against R83: reading a host-op word by its fields (op 15:12, must-be-zero 11:9,
`d` 8, `data` 7:0) gives the event the mask table gives, and every other word is refused. The encoding is the
spec's own decision D18. -/
def Obligations.HostWordsDecodeByFields : Prop :=
  ∀ w : Half,
    decodeHostWord w =
      (if w.extractLsb' 9 3 ≠ 0 then .error (.reservedHostOp w)
       else if w.extractLsb' 12 4 = 0x2 ∧ w.getLsbD 8 = false then .ok (.rxByte (w.extractLsb' 0 8))
       else if w.extractLsb' 0 8 ≠ 0 then .error (.reservedHostOp w)
       else if w.extractLsb' 12 4 = 0x3 then .ok (.pollCheck (w.getLsbD 8))
       else if w.getLsbD 8 = true then .error (.reservedHostOp w)
       else if w.extractLsb' 12 4 = 0x1 then .ok .setup
       else if w.extractLsb' 12 4 = 0x4 then .ok .resetRestart
       else if w.extractLsb' 12 4 = 0x5 then .ok .leaveRejoin
       else if w.extractLsb' 12 4 = 0x6 then .ok .dump
       else .error (.reservedHostOp w))

/-- R70, R75 to R77, R82, R83: decoding the words of any well-formed instruction gives it back, with every
operand at every value the encoding admits. -/
def Obligations.DecodeInvertsEncode : Prop :=
  ∀ i : Instr, i.wellFormed = true → decode (encode i) = .ok i

/-- R70, R75 to R77, R82, R83: whatever either decoder accepts is the encoding of a well-formed instruction,
and of the one it answers; so no two encodings mean the same and nothing reserved is accepted. -/
def Obligations.EncodeInvertsDecode : Prop :=
  ∀ (e : Encoding) (i : Instr), decode e = .ok i → i.wellFormed = true ∧ encode i = e

/-- A few words written out from the spec: the host-op table of R83, and the frames of 95_test_vectors.md
L1-1, L1-2, DS-5, DS-7, DS-8. -/
def Obligations.SpecWordsDecode : Prop :=
  decode (.hostWord 0x1000) = .ok .setup ∧
  decode (.hostWord 0x2055) = .ok (.rxByte 0x55) ∧
  decode (.hostWord 0x3100) = .ok (.pollCheck true) ∧
  decode (.hostWord 0x6000) = .ok .dump ∧
  decode (.frame [0x55, 0xAA, 0x02, 0x00, 0x01, 0x01, 0x00, 0x00, 0x03]) =
    .ok (.queryProductInfo 0x02 0x0001 []) ∧
  decode (.frame [0x55, 0xAA, 0x02, 0x00, 0x05, 0x20, 0x00, 0x01, 0x03, 0x2A]) =
    .ok (.queryNetworkStatus 0x02 0x0005 [0x03]) ∧
  decode (.frame [0x55, 0xAA, 0x02, 0x00, 0x00, 0x03, 0x00, 0x01, 0x00, 0x05]) =
    .ok (.resetModuleInbound 0x02 0x0000 [0x00])

/-! ### The frame codec -/

/-- 40_codec.md R100, with its corner cases and its example. -/
def Obligations.ChecksumIsByteSumModulo256 : Prop :=
  (∀ s : List Byte, (cks s).toNat = (s.map BitVec.toNat).sum % 256) ∧
  cks [] = 0x00 ∧
  cks [0x55, 0xAA] = 0xFF ∧
  cks [0x55, 0xAA, 0x02] = 0x01 ∧
  cks [0x55, 0xAA, 0x02, 0x00, 0x01, 0x01, 0x00, 0x00] = 0x03

/-- R101, R102, R106: the frame Serialize returns field by field, its length, what it writes, and R101's
example. -/
def Obligations.SerializeBuildsTheFrame : Prop :=
  (∀ (cmd : Byte) (payload : List Byte) (sq : Half) (b : Block), payload.length ≤ 65535 →
    let f := (serialize cmd payload sq b).1
    f.take 3 = [0x55, 0xAA, 0x02] ∧
    be16 (f.getD 3 0) (f.getD 4 0) = (if sq = 0xFFFF then b.seqCtr else sq) ∧
    f[5]? = some cmd ∧
    (be16 (f.getD 6 0) (f.getD 7 0)).toNat = payload.length ∧
    (f.drop 8).take payload.length = payload ∧
    f.getLast? = some (cks f.dropLast) ∧
    f.length = 9 + payload.length ∧
    (serialize cmd payload sq b).2 =
      { b with seqCtr := if sq = 0xFFFF then nextSeq b.seqCtr else b.seqCtr }) ∧
  (∀ b : Block, b.seqCtr = 0x0000 →
    serialize 0x03 [0x01] 0xFFFF b =
      ([0x55, 0xAA, 0x02, 0x00, 0x00, 0x03, 0x00, 0x01, 0x01, 0x06], { b with seqCtr := 0x0001 }))

/-- R109 (derived) with R111: a serialized frame validates, and deserializes to the fields it was made
of. -/
def Obligations.SerializedFramesReadBack : Prop :=
  ∀ (cmd : Byte) (payload : List Byte) (sq : Half) (b : Block), payload.length ≤ 65535 →
    validate (serialize cmd payload sq b).1 = true ∧
    deserialize (serialize cmd payload sq b).1 =
      some { version := 0x02, sequence := if sq = 0xFFFF then b.seqCtr else sq,
             command := cmd, payload := payload }

/-- R104 in the reading of the spec's decision D5: from any value the counter may hold it counts modulo
65521, and at or above `0xFFF0` the next value is 0. -/
def Obligations.CounterCountsModulo65521 : Prop :=
  (∀ (c : Half) (k : Nat), c ≤ 0xFFF0 → (nextSeq^[k] c).toNat = (c.toNat + k) % 65521) ∧
  (∀ c : Half, 0xFFF0 ≤ c → nextSeq c = 0x0000)

/-- R105 (derived; (a) rests on R24 and on the wrap of the spec's decision D5): after `k` sentinel calls the
block holds `next^k(c)` and the frame of the next sentinel call, whatever its command and payload, carries it
in its sequence field (c); from a counter of at most `0xFFF0` that value is at most `0xFFF0`, so it is never
the sentinel (a); an explicit number leaves the block unchanged (b). -/
def Obligations.SentinelCallsAssignSuccessiveValues : Prop :=
  (∀ (cmd cmd' : Byte) (payload payload' : List Byte) (b : Block) (k : Nat),
    let after := (fun b' => (serialize cmd payload 0xFFFF b').2)^[k] b
    let f := (serialize cmd' payload' 0xFFFF after).1
    after = { b with seqCtr := nextSeq^[k] b.seqCtr } ∧
    be16 (f.getD 3 0) (f.getD 4 0) = nextSeq^[k] b.seqCtr ∧
    (b.seqCtr ≤ 0xFFF0 → nextSeq^[k] b.seqCtr ≤ 0xFFF0)) ∧
  (∀ (cmd : Byte) (payload : List Byte) (sq : Half) (b : Block), sq ≠ 0xFFFF →
    (serialize cmd payload sq b).2 = b)

/-- R107, with its corner cases (no completed frame has fewer than 9 bytes) and its examples. -/
def Obligations.ValidateComparesTheTrailer : Prop :=
  validate [] = false ∧
  (∀ (s : List Byte) (c : Byte), validate (s ++ [c]) = true ↔ cks s = c) ∧
  (∀ c : Byte, validate [c] = true ↔ c = 0x00) ∧
  (∀ payloadLength : Nat, 9 ≤ frameLength payloadLength) ∧
  validate [0x55, 0xAA, 0x02, 0x00, 0x01, 0x01, 0x00, 0x00, 0x03] = true ∧
  validate [0x55, 0xAA, 0x02, 0x00, 0x01, 0x01, 0x00, 0x00, 0xCB] = false

/-- R110 (derived): every change of one byte of a valid frame is detected. -/
def Obligations.SingleByteChangeIsDetected : Prop :=
  ∀ (f : List Byte) (i : Nat) (x : Byte), validate f = true → (hi : i < f.length) → f[i] ≠ x →
    validate (f.set i x) = false

/-- 95_test_vectors.md VA-6 in general: reordering the bytes before the trailer is not detected. -/
def Obligations.ReorderingIsNotDetected : Prop :=
  ∀ (s t : List Byte) (c : Byte), s.Perm t → validate (s ++ [c]) = validate (t ++ [c])

/-- R111: on a header-checked frame of `9 + L` bytes Deserialize takes every field by position, and on
nothing else has it a meaning. -/
def Obligations.DeserializeReadsByPosition : Prop :=
  ∀ (f : List Byte) (r : FrameFields),
    deserialize f = some r ↔
      f[0]? = some 0x55 ∧ f[1]? = some 0xAA ∧
      f.length = 9 + (be16 (f.getD 6 0) (f.getD 7 0)).toNat ∧
      r.version = f.getD 2 0 ∧ r.sequence = be16 (f.getD 3 0) (f.getD 4 0) ∧ r.command = f.getD 5 0 ∧
      r.payload = (f.drop 8).take (be16 (f.getD 6 0) (f.getD 7 0)).toNat

/-- 42_dispatcher.md R164 with the spec's decisions D6 and D7: the label's port value for every byte, and
the one text the spec fixes. -/
def Obligations.LabelMapIsTotal : Prop :=
  (∀ code : Byte, (labelOf code).portValue.toNat = if code.toNat ≤ 3 then code.toNat else 4) ∧
  (∀ c : Config, labelText c (labelOf 0x01) = "CONNECTED")

/-- 60_exceptions.md R221: the code of each diagnostic and its severity (numbers: the spec's decision
D17). -/
def Obligations.DiagnosticCodes : Prop :=
  ∀ (x y : Byte) (n : Nat),
    ((Diag.headerMismatch x y).code = 1 ∧ (Diag.headerMismatch x y).severity = .warning) ∧
    ((Diag.checksumMismatch x y).code = 2 ∧ (Diag.checksumMismatch x y).severity = .warning) ∧
    ((Diag.emptyStatus x).code = 3 ∧ (Diag.emptyStatus x).severity = .warning) ∧
    ((Diag.unrecognizedCmd x).code = 4 ∧ (Diag.unrecognizedCmd x).severity = .lowerThanWarning) ∧
    ((Diag.dumpReport n).code = 5 ∧ (Diag.dumpReport n).severity = .informational)

/-! ### The reassembler, byte by byte -/

/-- 41_reassembler.md R130. -/
def Obligations.SearchingKeepsOnlyTheHeaderByte : Prop :=
  ∀ (s : State) (b : Block) (data : Byte), s.block = some b → b.buf = [] →
    exec (.rxByte data) s =
      .next (if data = 0x55 then { s with block := some { b with buf := [0x55] } } else s)

/-- R131 with R222 and R134: any second byte but `0xAA` raises HEADER_MISMATCH with the two bytes checked and
leaves the buffer empty, the second byte with it. -/
def Obligations.HeaderWaitChecksBothBytes : Prop :=
  ∀ (s : State) (b : Block) (first data : Byte), s.block = some b → b.buf = [first] →
    exec (.rxByte data) s =
      .next (if first = 0x55 ∧ data = 0xAA then { s with block := some { b with buf := [first, data] } }
             else { s with block := some { b with buf := [] },
                           out := s.out ++ [.diag (.headerMismatch first data)] }) ∧
    (Diag.headerMismatch first data).severity = .warning

/-- R132, a byte that completes no frame: it is appended and nothing else happens. -/
def Obligations.AccumulatingAppends : Prop :=
  ∀ (s : State) (b : Block) (data : Byte), s.block = some b → 2 ≤ b.buf.length → b.buf.length < 65544 →
    (b.buf.length + 1 < 8 ∨
      b.buf.length + 1 ≠
        8 + (be16 ((b.buf ++ [data]).getD 6 0) ((b.buf ++ [data]).getD 7 0)).toNat + 1) →
    exec (.rxByte data) s = .next { s with block := some { b with buf := b.buf ++ [data] } }

/-- R133, a valid frame, and the frame's side of "a step runs the decoded instruction": when the buffer
and the byte received make a frame that decodes to `i`, RX_BYTE is `i` on the state with the buffer cleared. -/
def Obligations.CompletionRunsTheDecodedCommand : Prop :=
  ∀ (s : State) (b : Block) (data : Byte) (i : Instr), s.block = some b →
    decodeFrame (b.buf ++ [data]) = .ok i →
    exec (.rxByte data) s = exec i { s with block := some { b with buf := [] } }

/-- R133 with R223, a frame that fails the checksum: CHECKSUM_MISMATCH with the computed and the received
byte, the buffer cleared, nothing dispatched. -/
def Obligations.CompletionDropsABadFrame : Prop :=
  ∀ (s : State) (b : Block) (data : Byte), s.block = some b →
    8 ≤ b.buf.length →
    b.buf.length + 1 = 8 + (be16 (b.buf.getD 6 0) (b.buf.getD 7 0)).toNat + 1 →
    cks b.buf ≠ data →
    exec (.rxByte data) s =
      .next { s with block := some { b with buf := [] },
                     out := s.out ++ [.diag (.checksumMismatch (cks b.buf) data)] } ∧
    (Diag.checksumMismatch (cks b.buf) data).severity = .warning

/-- Where the model stops inside RX_BYTE, in states that break the invariants of R33 (each clause says so): an
append at index `BUF_CAP`, which does not exist (20_memory.md R50; LOG 7), and a buffer with a right checksum
that is no header-checked frame, on which Deserialize has no meaning (R111; 93 item 12; LOG 8). The fault's
and the refusal's names are the model's choice. -/
def Obligations.UnreachableBuffersStop : Prop :=
  (∀ (s : State) (b : Block) (data : Byte), s.block = some b → 65544 ≤ b.buf.length →
    exec (.rxByte data) s = .fault .bufferFull ∧ ¬ s.Inv) ∧
  (∀ (s : State) (b : Block) (data : Byte), s.block = some b →
    8 ≤ b.buf.length →
    b.buf.length + 1 = 8 + (be16 (b.buf.getD 6 0) (b.buf.getD 7 0)).toNat + 1 →
    cks b.buf = data → deserialize (b.buf ++ [data]) = none →
    exec (.rxByte data) s = .refused .notACompleteFrame ∧ ¬ s.Inv)

/-! ### The reassembler, over byte streams -/

/-- R139 (derived): a frame whose first byte arrives in Searching is delivered: its bytes, one RX_BYTE
each, are exactly its command. -/
def Obligations.EveryFrameFromSearchingIsDelivered : Prop :=
  ∀ (s : State) (b : Block) (i : Instr) (f : List Byte), s.block = some b → b.buf = [] →
    i.wellFormed = true → encode i = .frame f → receive f s = exec i s

/-- R137: the bytes of several frames in one drive run their commands one after another, each before the
next byte is taken. -/
def Obligations.FramesInSequenceRunInSequence : Prop :=
  ∀ (s : State) (b : Block) (is : List Instr), s.block = some b → b.buf = [] →
    (∀ i ∈ is, i.wellFormed = true ∧ i.isFrameCommand = true) →
    receive (is.flatMap fun i => match encode i with
      | .frame f => f
      | .hostWord _ => []) s = runEvents is s

/-- R130 over a stream: bytes other than `0x55` in Searching change nothing and raise nothing. -/
def Obligations.NoiseIsDiscardedSilently : Prop :=
  ∀ (s : State) (b : Block) (noise : List Byte), s.block = some b → b.buf = [] → 0x55 ∉ noise →
    receive noise s = .next s

/-- R134 with R131: after a failed header check both bytes are gone (`55` included). That the bytes up to the
next `0x55` are then discarded (R130) and the frame that starts there is delivered is R139's inference, which
the spec marks derived (R252 says the same of the receiver). -/
def Obligations.HeaderMismatchDropsBothBytes : Prop :=
  ∀ (s : State) (b : Block) (second : Byte) (noise : List Byte) (i : Instr) (f : List Byte),
    s.block = some b → b.buf = [] → second ≠ 0xAA → 0x55 ∉ noise →
    i.wellFormed = true → encode i = .frame f →
    receive ([0x55, second] ++ noise ++ f) s =
      exec i { s with out := s.out ++ [.diag (.headerMismatch 0x55 second)] }

/-- R133, R135: a whole header-checked span of `9 + L` bytes that fails the checksum raises one
CHECKSUM_MISMATCH and nothing else, whatever bytes (frames too) lie inside it. -/
def Obligations.CorruptSpanIsDroppedWhole : Prop :=
  ∀ (s : State) (b : Block) (f : List Byte) (data : Byte), s.block = some b → b.buf = [] →
    f[0]? = some 0x55 → f[1]? = some 0xAA → 8 ≤ f.length →
    f.length = 8 + (be16 (f.getD 6 0) (f.getD 7 0)).toNat → cks f ≠ data →
    receive (f ++ [data]) s = .next { s with out := s.out ++ [.diag (.checksumMismatch (cks f) data)] }

/-- R132, R253: a frame cut off before its last byte waits in the buffer, with no output and no other
change. -/
def Obligations.PartialFrameWaits : Prop :=
  ∀ (s : State) (b : Block) (i : Instr) (p q : List Byte), s.block = some b → b.buf = [] →
    i.wellFormed = true → encode i = .frame (p ++ q) → q ≠ [] →
    receive p s = .next { s with block := some { b with buf := p } }

/-- 43_host_ops.md R199 (derived): a poll check, a reset command or a dump between two bytes of a frame is
as if it had come before the frame. -/
def Obligations.HostOperationMidFrameIsHarmless : Prop :=
  ∀ (s : State) (b : Block) (h i : Instr) (p q : List Byte), s.block = some b → b.buf = [] →
    (h = .resetRestart ∨ h = .leaveRejoin ∨ h = .dump ∨ ∃ due, h = .pollCheck due) →
    i.wellFormed = true → encode i = .frame (p ++ q) → q ≠ [] →
    runEvents (rxEvents p ++ h :: rxEvents q) s = runEvents (h :: rxEvents (p ++ q)) s

/-- 42_dispatcher.md R168: on the wire, the version byte of a frame never matters. R169: the sequence number
matters for Query Product Info alone. Last, R168's example, `Status(0)`: that status byte `00` is the label
not-connected is the spec's decision D6 (LOG 15). -/
def Obligations.VersionAndSequenceAreNotConsulted : Prop :=
  ∀ (s : State) (b : Block) (r : FrameFields) (v : Byte) (q : Half), s.block = some b → b.buf = [] →
    r.payload.length ≤ 65535 →
    receive (encodeFrame { r with version := v }) s = receive (encodeFrame r) s ∧
    (r.command ≠ 0x01 →
      receive (encodeFrame { r with sequence := q }) s = receive (encodeFrame r) s) ∧
    receive [0x55, 0xAA, 0x03, 0x00, 0x00, 0x02, 0x00, 0x01, 0x00, 0x05] s =
      .next { s with out := s.out ++ [.status .notConnected] }

/-! ### The dispatcher's commands -/

/-- R161, R162: the response frame, the flag, and the counter where the request carries the sentinel. The
response's command byte is the spec's decision D9, its payload the open PRODUCT_INFO (D10). -/
def Obligations.QueryProductInfoAnswers : Prop :=
  ∀ (s : State) (b : Block) (version : Byte) (seq : Half) (payload : List Byte), s.block = some b →
    exec (.queryProductInfo version seq payload) s =
      .next { s with
        block := some { b with
          initFlag := true,
          seqCtr := if seq = 0xFFFF then nextSeq b.seqCtr else b.seqCtr },
        out := s.out ++
          [.tx (frameLiteral (if seq = 0xFFFF then b.seqCtr else seq) 0x01 s.cfg.productInfo)] }

/-- R163, R165: payload byte 0 is published as its label, whatever follows it (D8), and nothing changes. -/
def Obligations.StatusFramesPublishTheirLabel : Prop :=
  ∀ (s : State) (b : Block) (version : Byte) (seq : Half) (code : Byte) (rest : List Byte),
    s.block = some b →
    exec (.syncNetworkStatus version seq (code :: rest)) s =
      .next { s with out := s.out ++ [.status (labelOf code)] } ∧
    exec (.queryNetworkStatus version seq (code :: rest)) s =
      .next { s with out := s.out ++ [.status (labelOf code)] }

/-- 60_exceptions.md R224: an empty status payload raises EMPTY_STATUS, a warning, publishes nothing and
changes nothing. That the event carries the command code, `02` or `20`, is R163, R165 and R221: the spec's
own `info` payload, its decision D17 (LOG 15). -/
def Obligations.EmptyStatusRaisesAWarning : Prop :=
  ∀ (s : State) (b : Block) (version : Byte) (seq : Half), s.block = some b →
    exec (.syncNetworkStatus version seq []) s =
      .next { s with out := s.out ++ [.diag (.emptyStatus 0x02)] } ∧
    exec (.queryNetworkStatus version seq []) s =
      .next { s with out := s.out ++ [.diag (.emptyStatus 0x20)] } ∧
    (Diag.emptyStatus 0x02).severity = .warning ∧ (Diag.emptyStatus 0x20).severity = .warning

/-- R225 with R166 and R167: an inbound Reset Module frame and every unrecognized command are logged with
their code and change nothing. Inbound `0x03` is the spec's decision D13. -/
def Obligations.OtherCommandsAreLoggedAndDropped : Prop :=
  ∀ (s : State) (b : Block) (version command : Byte) (seq : Half) (payload : List Byte),
    s.block = some b →
    exec (.resetModuleInbound version seq payload) s =
      .next { s with out := s.out ++ [.diag (.unrecognizedCmd 0x03)] } ∧
    exec (.unrecognizedCmd version seq command payload) s =
      .next { s with out := s.out ++ [.diag (.unrecognizedCmd command)] }

/-- R160 (derived): each valid frame produces exactly one output event, leaves the buffer as it finds it,
and but for Query Product Info leaves the whole block as it finds it. -/
def Obligations.EachFrameGivesExactlyOneOutput : Prop :=
  ∀ (s : State) (b : Block) (i : Instr), s.block = some b → i.isFrameCommand = true →
    ∃ (b' : Block) (o : Out),
      exec i s = .next { s with block := some b', out := s.out ++ [o] } ∧ b'.buf = b.buf ∧
      ((∀ v q p, i ≠ .queryProductInfo v q p) → b' = b)

/-! ### The host operations -/

/-- R190: SETUP from every state, `Unset` and a partial frame included. The counter's value is SEQ_INIT
(the spec's decision D4), `0x0000` in the installed configuration; dropping a partial frame with no
diagnostic is its decision D28 (LOG 15). R190 gives SETUP no output, so no event is added; that the record of
the events already emitted is left as it is is the model's reading of R32's "no events pending" (LOG 4,
DEDUCED), no rule of the spec. -/
def Obligations.SetupResetsTheBlock : Prop :=
  (∀ s : State,
    exec .setup s =
      .next { s with block := some { buf := [], seqCtr := s.cfg.seqInit, initFlag := false } }) ∧
  Config.installed.seqInit = 0x0000

/-- R191, the poll: with the flag set and the interval elapsed. The empty payload is the spec's decision
D11. -/
def Obligations.PollCheckSendsAPoll : Prop :=
  ∀ (s : State) (b : Block), s.block = some b → b.initFlag = true →
    exec (.pollCheck true) s =
      .next { s with block := some { b with seqCtr := nextSeq b.seqCtr },
                     out := s.out ++ [.tx (frameLiteral b.seqCtr 0x20 [])] }

/-- R191, R255: without the flag, or without the interval elapsed, nothing happens. -/
def Obligations.PollCheckIsSkipped : Prop :=
  ∀ (s : State) (b : Block) (due : Bool), s.block = some b → (b.initFlag = false ∨ due = false) →
    exec (.pollCheck due) s = .next s

/-- R193, R194, R195: one frame with command `0x03` and the mode byte; the counter advances (the spec's
decision D12), the buffer and the flag do not change (D15). -/
def Obligations.ResetCommandsSendTheirMode : Prop :=
  ∀ (s : State) (b : Block), s.block = some b →
    exec .resetRestart s =
      .next { s with block := some { b with seqCtr := nextSeq b.seqCtr },
                     out := s.out ++ [.tx (frameLiteral b.seqCtr 0x03 [0x00])] } ∧
    exec .leaveRejoin s =
      .next { s with block := some { b with seqCtr := nextSeq b.seqCtr },
                     out := s.out ++ [.tx (frameLiteral b.seqCtr 0x03 [0x01])] }

/-- R196. -/
def Obligations.DumpReportsThePollInterval : Prop :=
  ∀ (s : State) (b : Block), s.block = some b →
    exec .dump s = .next { s with out := s.out ++ [.diag (.dumpReport s.cfg.pollInterval)] } ∧
    (Diag.dumpReport s.cfg.pollInterval).code = 5

/-- R197 (the spec's decision D24): in `Unset` every event but SETUP is refused. That the five frame commands,
which are no events of their own, are refused there too when `exec` is asked for one is the model's choice
(LOG 9, DESIGN CHOICE). -/
def Obligations.EventsBeforeSetupAreRefused : Prop :=
  ∀ (s : State) (i : Instr), s.block = none → i ≠ .setup → exec i s = .refused .notSetUp

/-- R192: a drive pass that brings the product-info request answers it and polls in the same pass, in that
order. The response's command byte is D9 and the empty poll payload D11. -/
def Obligations.HandshakeThenPollInOnePass : Prop :=
  ∀ (s : State) (b : Block) (r : FrameFields), s.block = some b → b.buf = [] →
    r.command = 0x01 → r.sequence ≠ 0xFFFF → r.payload.length ≤ 65535 →
    runEvents (drivePass (encodeFrame r) true) s =
      .next { s with
        block := some { b with initFlag := true, seqCtr := nextSeq b.seqCtr },
        out := s.out ++ [.tx (frameLiteral r.sequence 0x01 s.cfg.productInfo),
                         .tx (frameLiteral b.seqCtr 0x20 [])] }

/-! ### The step -/

/-- 00_scope.md R10 with 10_state.md R29: the oldest word presented, when it decodes to `i`, is taken and the
step is `i` on what is left. -/
def Obligations.StepRunsTheDecodedEvent : Prop :=
  ∀ (s : State) (w : Half) (ws : List Half) (i : Instr), s.input = w :: ws → decode (.hostWord w) = .ok i →
    step s = exec i { s with input := ws }

/-- R198 (the spec's decision D18): a word of no row is refused; among them every word with op 0 or 7 to 15.
In every state, `Unset` included: that such a word is refused as reserved there too, before the `Unset` guard
of R197 is asked, is the model's inference from HO-11 of 95_test_vectors.md (LOG 12, DEDUCED). -/
def Obligations.ReservedWordsAreRefused : Prop :=
  (∀ (s : State) (w : Half) (ws : List Half) (e : DecodeError), s.input = w :: ws →
    decode (.hostWord w) = .error e → step s = .refused (.reservedHostOp w)) ∧
  (∀ (s : State) (w : Half) (ws : List Half), s.input = w :: ws →
    (w.extractLsb' 12 4 = 0x0 ∨ 0x7 ≤ w.extractLsb' 12 4) → step s = .refused (.reservedHostOp w))

/-- 60_exceptions.md R234 and 41_reassembler.md R136: with no event nothing changes. -/
def Obligations.IdleChangesNothing : Prop :=
  ∀ s : State, s.input = [] → step s = .next s

/-- R10, 20_memory.md R59: the words of a run of events, presented together, are taken one a step and in
their order. -/
def Obligations.PresentedWordsRunInOrder : Prop :=
  ∀ (events : List Instr) (s s' : State) (ws : List Half),
    (∀ i ∈ events, i.isFrameCommand = false) → s.input = hostWords events ++ ws →
    runEvents events { s with input := ws } = .next s' →
    Host.Core.run core events.length s = .next s'

/-! ### The machine as a whole -/

/-- 10_state.md R32, 70_reset_and_hazards.md R250: the machine after reset, the configuration but for
SEQ_INIT open. The counter's value is the spec's decision D4. -/
def Obligations.ResetHoldsTheSpecsValues : Prop :=
  State.reset.block = some { buf := [], seqCtr := 0x0000, initFlag := false } ∧
  State.reset.out = [] ∧ State.reset.initFlagPort = some false ∧
  phase ([] : Memory) = .searching ∧
  exec .setup State.reset = .next State.reset

/-- R33 holds at reset. -/
def Obligations.ResetMeetsTheInvariants : Prop :=
  State.reset.Inv

/-- R33 (derived): every step from a state that meets I1 to I5 ends in one that does. -/
def Obligations.StepKeepsTheInvariants : Prop :=
  ∀ s s' : State, s.Inv → step s = .next s' → s'.Inv

/-- R220, R138: from a state that meets the invariants every instruction completes on a block that is set
up, so no fault and no refusal is left inside the block. -/
def Obligations.EveryInstructionCompletes : Prop :=
  ∀ (s : State) (i : Instr), s.Inv → s.block ≠ none → ∃ s', exec i s = .next s' ∧ s'.Inv

/-- R220: "Refusals happen only at the input boundary": a step that has no next state is refused for
`Unset` or for a reserved word. -/
def Obligations.StepStopsOnlyAtTheInputBoundary : Prop :=
  ∀ s : State, s.Inv →
    (∃ s', step s = .next s') ∨
    (s.block = none ∧ step s = .refused .notSetUp) ∨
    (∃ (w : Half) (ws : List Half), s.input = w :: ws ∧ decode (.hostWord w) = .error (.reservedHostOp w) ∧
      step s = .refused (.reservedHostOp w))

/-- R251 with R220: a run the host may present, SETUP first, completes from every state and ends in the
invariants. -/
def Obligations.AdmittedRunsComplete : Prop :=
  ∀ (events : List Instr) (s : State), admittedRun events = true →
    ∃ s', runEvents events s = .next s' ∧ s'.Inv

/-- R226, R138 (derived): a step emits at most one output event, so at most one diagnostic. It keeps the
record of what was emitted: R58 says of a Tx emission that it cannot be taken back; that the record holds the
events of every port and that SETUP too keeps the whole of it is the model's reading (LOG 4, DEDUCED). -/
def Obligations.StepEmitsAtMostOneOutput : Prop :=
  ∀ s s' : State, step s = .next s' → ∃ o : List Out, s'.out = s.out ++ o ∧ o.length ≤ 1

/-- R27, R61, R10: no instruction writes the configuration or the words presented; a step takes at most the
oldest word. -/
def Obligations.ConfigurationIsNeverWritten : Prop :=
  (∀ (s s' : State) (i : Instr), exec i s = .next s' → s'.cfg = s.cfg ∧ s'.input = s.input) ∧
  (∀ s s' : State, step s = .next s' → s'.cfg = s.cfg ∧ s'.input = s.input.tail)

/-- R25: the flag becomes false by SETUP alone (the spec's decision D15), and true only with a product-info
response sent in the same step (42_dispatcher.md R161). That the response's command byte is `0x01` is the
spec's decision D9, a constant of the model (LOG 10, DESIGN CHOICE). -/
def Obligations.FlagWriters : Prop :=
  ∀ (s s' : State) (i : Instr) (b b' : Block), s.block = some b → exec i s = .next s' →
    s'.block = some b' → b'.initFlag ≠ b.initFlag →
    (b'.initFlag = false ∧ i = .setup) ∨
    (b'.initFlag = true ∧ ∃ f, s'.out = s.out ++ [.tx f] ∧ f[5]? = some 0x01)

/-- R103: the counter changes by SETUP or by one `next`, and then a frame carrying its old value is sent in
the same step. -/
def Obligations.CounterWriters : Prop :=
  ∀ (s s' : State) (i : Instr) (b b' : Block), s.block = some b → exec i s = .next s' →
    s'.block = some b' → b'.seqCtr ≠ b.seqCtr →
    i = .setup ∨
    (b'.seqCtr = nextSeq b.seqCtr ∧
      ∃ f, s'.out = s.out ++ [.tx f] ∧ be16 (f.getD 3 0) (f.getD 4 0) = b.seqCtr)

/-- R73, R76, R106, R30: every frame a step sends is complete, has a right checksum and version `0x02`, is 9
to 65544 bytes long and never carries the sentinel. -/
def Obligations.EverySentFrameIsWellFormed : Prop :=
  ∀ (s s' : State) (o : List Out) (f : List Byte), s.Inv → step s = .next s' → s'.out = s.out ++ o →
    .tx f ∈ o → sentFrameOk f = true ∧ 9 ≤ f.length ∧ f.length ≤ 65544

/-- R251.3, R255: in any run that begins with the flag false or unset, a poll frame (command `0x20`) is
sent only after a product-info response (42_dispatcher.md R161). That the response's command byte is `0x01`
is the spec's decision D9, a constant of the model (LOG 10, DESIGN CHOICE): another response code would make
the statement false. It is read off the record of a whole run, which a SETUP inside the run keeps (LOG 4). -/
def Obligations.PollsOnlyAfterTheHandshake : Prop :=
  ∀ (events : List Instr) (s s' : State) (before after : List Out) (f : List Byte),
    (∀ b ∈ s.block, b.initFlag = false) → runEvents events s = .next s' →
    s'.out = s.out ++ before ++ [.tx f] ++ after → f[5]? = some 0x20 →
    ∃ g ∈ txPort before, g[5]? = some 0x01

/-! ### The optional poll timer -/

/-- R231, R230: every run of the block with the deterministic timer is a run of the normative block for one
sequence of due bits. -/
def Obligations.PollTimerRefinesTheDraw : Prop :=
  ∀ (timeW : Nat) (tc : TimerConfig timeW) (es : List (TimedEvent timeW)) (t t' : TimedState timeW),
    runTimed tc es t = .next t' →
    ∃ is : List Instr, List.Forall₂ (fun e i => e.isInstanceOf i = true) es is ∧
      runEvents is t.base = .next t'.base

/-- R231 with the default comparison: a poll is sent exactly when the flag is set and the interval has
elapsed, it records the reading, and no check before the interval has elapsed again sends another. -/
def Obligations.TimedPollsKeepTheInterval : Prop :=
  ∀ (timeW : Nat) (tc : TimerConfig timeW) (t : TimedState timeW) (b : Block) (now later : BitVec timeW),
    tc.cmp = .atLeast → t.base.block = some b → b.initFlag = true →
    t.base.cfg.pollInterval ≤ (now - t.lastPoll).toNat →
    (later - now).toNat < t.base.cfg.pollInterval →
    ∃ t', execTimed tc (.pollCheckT now) t = .next t' ∧ t'.lastPoll = now ∧
      exec (.pollCheck true) t.base = .next t'.base ∧
      execTimed tc (.pollCheckT later) t' = .next t'
end

