-- ==== Sys2Proof/Laws/Codec.lean ====
section
/-! SUPPORT. Laws of the bytes and 16-bit values, of the checksum, and of Serialize with its counter
(00_scope.md R8; 40_codec.md R100 to R107). -/

namespace Sys2Proof

/-! ### Splitting and joining 16-bit values -/

theorem be16_toNat (hi lo : Byte) : (be16 hi lo).toNat = hi.toNat * 256 + lo.toNat := by
  have h1 := hi.isLt
  have h2 := lo.isLt
  simp only [be16, BitVec.toNat_ofNat]
  omega

theorem hi8_toNat (v : Half) : (hi8 v).toNat = v.toNat / 256 := by
  have h := v.isLt
  simp [hi8, Nat.shiftRight_eq_div_pow]
  omega

theorem lo8_toNat (v : Half) : (lo8 v).toNat = v.toNat % 256 := by
  simp [lo8]

@[simp] theorem be16_hi8_lo8 (v : Half) : be16 (hi8 v) (lo8 v) = v := by
  apply BitVec.eq_of_toNat_eq
  rw [be16_toNat, hi8_toNat, lo8_toNat]
  omega

@[simp] theorem hi8_be16 (hi lo : Byte) : hi8 (be16 hi lo) = hi := by
  apply BitVec.eq_of_toNat_eq
  have h := lo.isLt
  rw [hi8_toNat, be16_toNat]
  omega

@[simp] theorem lo8_be16 (hi lo : Byte) : lo8 (be16 hi lo) = lo := by
  apply BitVec.eq_of_toNat_eq
  have h := lo.isLt
  rw [lo8_toNat, be16_toNat]
  omega

/-- The two bytes of a 16-bit value are all of it. -/
theorem be16_injective {hi lo hi' lo' : Byte} : be16 hi lo = be16 hi' lo' ↔ hi = hi' ∧ lo = lo' := by
  constructor
  · intro h
    exact ⟨by rw [← hi8_be16 hi lo, h, hi8_be16], by rw [← lo8_be16 hi lo, h, lo8_be16]⟩
  · rintro ⟨rfl, rfl⟩
    rfl

theorem be16_eq_append (hi lo : Byte) : be16 hi lo = (hi ++ lo : BitVec (8 + 8)) := by
  apply BitVec.eq_of_toNat_eq
  have h := Nat.two_pow_add_eq_or_of_lt (i := 8) (b := lo.toNat) lo.isLt hi.toNat
  rw [be16_toNat, BitVec.toNat_append, Nat.shiftLeft_eq, Nat.mul_comm hi.toNat (2 ^ 8), ← h]
  omega

/-- Masking a host-op word masks its two bytes (30_encoding.md R83). -/
theorem be16_and (hi lo hi' lo' : Byte) :
    be16 hi lo &&& be16 hi' lo' = be16 (hi &&& hi') (lo &&& lo') := by
  apply BitVec.eq_of_getLsbD_eq
  intro i _
  simp only [be16_eq_append]
  rw [BitVec.getLsbD_and]
  erw [BitVec.getLsbD_append, BitVec.getLsbD_append, BitVec.getLsbD_append]
  split <;> simp

/-- The length field of a payload that fits says its length (R75). -/
theorem lengthField_toNat {payload : List Byte} (h : payload.length ≤ 65535) :
    (BitVec.ofNat 16 payload.length).toNat = payload.length := by
  simp only [BitVec.toNat_ofNat]
  omega

/-! ### The checksum -/

theorem cks_cons (x : Byte) (s : List Byte) : cks (x :: s) = x + cks s := by
  apply BitVec.eq_of_toNat_eq
  simp [cks, BitVec.toNat_add]

theorem cks_append (s t : List Byte) : cks (s ++ t) = cks s + cks t := by
  apply BitVec.eq_of_toNat_eq
  simp [cks, BitVec.toNat_add]

/-- Validate on a sequence given as its body and its trailer (R107). -/
theorem validate_append_trailer (s : List Byte) (c : Byte) : validate (s ++ [c]) = (cks s == c) := by
  simp [validate]

/-! ### The frame -/

@[simp] theorem frameBody_length (r : FrameFields) : (frameBody r).length = 8 + r.payload.length := by
  simp [frameBody]
  omega

@[simp] theorem encodeFrame_length (r : FrameFields) : (encodeFrame r).length = 9 + r.payload.length := by
  simp [encodeFrame]
  omega

theorem validate_encodeFrame (r : FrameFields) : validate (encodeFrame r) = true := by
  simp [encodeFrame, validate_append_trailer]

/-- What the frame decoder accepts (R111, R107, R77). -/
theorem decodeFrame_eq_ok {f : List Byte} {i : Instr} :
    decodeFrame f = .ok i ↔ ∃ r, deserialize f = some r ∧ validate f = true ∧ demux r = i := by
  unfold decodeFrame
  split
  · rename_i r hr
    simp only [hr, Option.some.injEq, exists_eq_left']
    split <;> simp_all
  · simp_all

namespace Machine

/-! ### The counter and Serialize -/

/-- `next` never leaves `0..0xFFF0` (R104). -/
theorem nextSeq_le (c : Half) : nextSeq c ≤ 0xFFF0 := by
  unfold nextSeq
  split
  · decide
  · rename_i h
    have h' : ¬ 65520 ≤ c.toNat := h
    show (c + 1).toNat ≤ 65520
    simp only [BitVec.toNat_add, BitVec.reduceToNat]
    omega

theorem nextSeq_toNat {c : Half} (h : c ≤ 0xFFF0) : (nextSeq c).toNat = (c.toNat + 1) % 65521 := by
  have h' : c.toNat ≤ 65520 := h
  unfold nextSeq
  split
  · rename_i hw
    have hw' : 65520 ≤ c.toNat := hw
    simp only [BitVec.reduceToNat]
    omega
  · rename_i hw
    have hw' : ¬ 65520 ≤ c.toNat := hw
    simp only [BitVec.toNat_add, BitVec.reduceToNat]
    omega

/-- The sequence number written (R102). -/
theorem seqSelect_fst (sq : Half) (b : Block) :
    (seqSelect sq b).1 = if sq = 0xFFFF then b.seqCtr else sq := by
  unfold seqSelect
  split <;> rfl

/-- What SeqSelect writes (R102, R103): the counter alone. -/
theorem seqSelect_snd (sq : Half) (b : Block) :
    (seqSelect sq b).2 = { b with seqCtr := if sq = 0xFFFF then nextSeq b.seqCtr else b.seqCtr } := by
  unfold seqSelect
  split <;> rfl

/-- Everything `sendFrame` does: one Tx event, and the counter where the sentinel was given. -/
theorem sendFrame_eq (cmd : Byte) (payload : List Byte) (sq : Half) (b : Block) (s : State) :
    sendFrame cmd payload sq b s =
      { s with
        block := some { b with seqCtr := if sq = 0xFFFF then nextSeq b.seqCtr else b.seqCtr },
        out := s.out ++ [.tx (encodeFrame
          { version := versionByte, sequence := if sq = 0xFFFF then b.seqCtr else sq,
            command := cmd, payload := payload })] } := by
  simp only [sendFrame, serialize, seqSelect_fst, seqSelect_snd, State.withBlock, State.emit]

end Machine

end Sys2Proof
end

