-- ==== Sys2Proof/Laws/State.lean ====
section
/-! SUPPORT. One lemma per field per update of `State` and `Block`, each true by unfolding, so that no later
proof opens a record update. -/

namespace Sys2Proof.Machine

variable (s : State) (b : Block) (o : Out) (d : Diag) (w : Half) (ws : List Half)

@[simp] theorem State.withBlock_cfg : (s.withBlock b).cfg = s.cfg := rfl
@[simp] theorem State.withBlock_block : (s.withBlock b).block = some b := rfl
@[simp] theorem State.withBlock_input : (s.withBlock b).input = s.input := rfl
@[simp] theorem State.withBlock_out : (s.withBlock b).out = s.out := rfl
@[simp] theorem State.withBlock_withBlock (b' : Block) : (s.withBlock b).withBlock b' = s.withBlock b' := rfl

@[simp] theorem State.emit_cfg : (s.emit o).cfg = s.cfg := rfl
@[simp] theorem State.emit_block : (s.emit o).block = s.block := rfl
@[simp] theorem State.emit_input : (s.emit o).input = s.input := rfl
@[simp] theorem State.emit_out : (s.emit o).out = s.out ++ [o] := rfl

@[simp] theorem State.raiseDiag_cfg : (s.raiseDiag d).cfg = s.cfg := rfl
@[simp] theorem State.raiseDiag_block : (s.raiseDiag d).block = s.block := rfl
@[simp] theorem State.raiseDiag_input : (s.raiseDiag d).input = s.input := rfl
@[simp] theorem State.raiseDiag_out : (s.raiseDiag d).out = s.out ++ [.diag d] := rfl

@[simp] theorem State.present_cfg : (s.present ws).cfg = s.cfg := rfl
@[simp] theorem State.present_block : (s.present ws).block = s.block := rfl
@[simp] theorem State.present_input : (s.present ws).input = s.input ++ ws := rfl
@[simp] theorem State.present_out : (s.present ws).out = s.out := rfl

@[simp] theorem State.withNextWord_cfg : (s.withNextWord w).cfg = s.cfg := rfl
@[simp] theorem State.withNextWord_block : (s.withNextWord w).block = s.block := rfl
@[simp] theorem State.withNextWord_input : (s.withNextWord w).input = w :: s.input := rfl
@[simp] theorem State.withNextWord_out : (s.withNextWord w).out = s.out := rfl

@[simp] theorem bufClear_buf : (bufClear b).buf = [] := rfl
@[simp] theorem bufClear_seqCtr : (bufClear b).seqCtr = b.seqCtr := rfl
@[simp] theorem bufClear_initFlag : (bufClear b).initFlag = b.initFlag := rfl

/-- Writing back the block a state already holds changes nothing. -/
theorem State.withBlock_of_block {s : State} {b : Block} (h : s.block = some b) : s.withBlock b = s := by
  cases s
  simp only at h
  subst h
  rfl

/-- The next word placed is the one taken, and nothing else has changed (10_state.md R29). -/
theorem fetchEvent_withNextWord : fetchEvent (s.withNextWord w) = some (w, s) := rfl

end Sys2Proof.Machine
end

