-- ==== Sys2Proof/Laws/Ops.lean ====
section
/-! SUPPORT. For each shared operation, once, what it can do; and that every operation on the reassembly
buffer keeps it a legal content of its storage space (20_memory.md R50 to R53). -/

namespace Sys2Proof.Machine

/-! ### Guards -/

theorem whenSetUp_some {s : State} {b : Block} (h : s.block = some b) (run : Block → Answer) :
    whenSetUp s run = run b := by
  simp [whenSetUp, h]

theorem whenSetUp_none {s : State} (h : s.block = none) (run : Block → Answer) :
    whenSetUp s run = .refused .notSetUp := by
  simp [whenSetUp, h]

/-- A guarded operation that answers a next state ran on a block. -/
theorem whenSetUp_eq_next {s s' : State} {run : Block → Answer} (h : whenSetUp s run = .next s') :
    ∃ b, s.block = some b ∧ run b = .next s' := by
  cases hb : s.block with
  | none => rw [whenSetUp_none hb] at h; cases h
  | some b => exact ⟨b, rfl, by rwa [whenSetUp_some hb] at h⟩

@[simp] theorem orFault_ok {α : Type} (a : α) (run : α → Answer) : orFault (.ok a) run = run a := rfl

@[simp] theorem orFault_error {α : Type} (f : Fault) (run : α → Answer) :
    orFault (.error f) run = .fault f := rfl

/-- A guarded operation that answers a next state had its value. -/
theorem orFault_eq_next {α : Type} {r : Except Fault α} {run : α → Answer} {s' : State}
    (h : orFault r run = .next s') : ∃ a, r = .ok a ∧ run a = .next s' := by
  cases r with
  | error f => cases h
  | ok a => exact ⟨a, rfl, h⟩

/-! ### The reassembly buffer -/

theorem bufAppend_ok {b : Block} (data : Byte) (h : b.buf.length < bufCap) :
    bufAppend data b = .ok { b with buf := b.buf ++ [data] } := by
  unfold bufAppend
  rw [if_pos h]

/-- An append that succeeds found room and did nothing but append (R51). -/
theorem bufAppend_eq_ok {data : Byte} {b b' : Block} (h : bufAppend data b = .ok b') :
    b.buf.length < bufCap ∧ b' = { b with buf := b.buf ++ [data] } := by
  unfold bufAppend at h
  split at h
  · rename_i hl
    cases h
    exact ⟨hl, rfl⟩
  · cases h

theorem bufRead_ok {m : Memory} {i : Nat} (h : i < m.length) : bufRead m i = .ok (m.getD i 0) := by
  simp [bufRead, h]

/-- A read past the end faults (R52). -/
theorem bufRead_out_of_range {m : Memory} {i : Nat} (h : m.length ≤ i) :
    bufRead m i = .error (.bufReadOutOfRange i m.length) := by
  simp [bufRead, h]

/-- A byte already in the buffer reads as before after an append. -/
theorem getD_append_of_lt {m t : List Byte} {i : Nat} (h : i < m.length) :
    (m ++ t).getD i 0 = m.getD i 0 := by
  simp only [List.getD, List.getElem?_append_left h]

theorem bufAppend_keeps_wf {data : Byte} {b b' : Block} (h : bufAppend data b = .ok b') :
    Memory.wf b'.buf = true := by
  obtain ⟨hl, rfl⟩ := bufAppend_eq_ok h
  simp only [Memory.wf, List.length_append, List.length_singleton, decide_eq_true_eq]
  omega

theorem bufClear_wf (b : Block) : Memory.wf (bufClear b).buf = true := by
  simp [Memory.wf]

theorem reset_buf_wf : (State.reset.block.map fun b => Memory.wf b.buf) = some true := rfl

/-! ### The phases -/

theorem phase_searching {m : Memory} (h : m.length = 0) : phase m = .searching := by
  unfold phase
  rw [if_pos h]

theorem phase_headerWait {m : Memory} (h : m.length = 1) : phase m = .headerWait := by
  unfold phase
  rw [if_neg (by omega), if_pos h]

theorem phase_accumulating {m : Memory} (h : 2 ≤ m.length) : phase m = .accumulating := by
  unfold phase
  rw [if_neg (by omega), if_neg (by omega)]

/-- R132 as one equation, for a buffer with room: the byte completes a frame or is appended. -/
theorem execRxByte_accumulating {s : State} {b : Block} (data : Byte) (hb : s.block = some b)
    (h2 : 2 ≤ b.buf.length) (hcap : b.buf.length < bufCap) :
    execRxByte data s =
      if 8 ≤ b.buf.length + 1 ∧
          b.buf.length + 1 =
            8 + (be16 ((b.buf ++ [data]).getD 6 0) ((b.buf ++ [data]).getD 7 0)).toNat + 1 then
        completeFrame { b with buf := b.buf ++ [data] } s
      else .next (s.withBlock { b with buf := b.buf ++ [data] }) := by
  simp only [execRxByte, whenSetUp_some hb, phase_accumulating h2, rxAccumulating, bufAppend_ok data hcap,
    orFault_ok, List.length_append, List.length_singleton, prefixLength, frameLength]
  by_cases h8 : 8 ≤ b.buf.length + 1
  · rw [if_pos h8, bufRead_ok (by simp; omega), bufRead_ok (by simp; omega)]
    simp only [h8, true_and, orFault_ok]
  · rw [if_neg h8, if_neg (by simp [h8])]

/-! ### The dispatcher's shared operations -/

/-- Everything `networkStatus` can answer (R163, R165). -/
theorem networkStatus_eq_next {command : Byte} {payload : List Byte} {s s' : State}
    (h : networkStatus command payload s = .next s') :
    ∃ o, s' = s.emit o ∧ (o = .diag (.emptyStatus command) ∨ ∃ code, o = .status (labelOf code)) := by
  obtain ⟨b, _, h⟩ := whenSetUp_eq_next h
  cases hp : statusOperand payload with
  | none => simp only [hp] at h; cases h; exact ⟨_, rfl, .inl rfl⟩
  | some code => simp only [hp] at h; cases h; exact ⟨_, rfl, .inr ⟨code, rfl⟩⟩

/-- Everything `unrecognized` can answer (R167). -/
theorem unrecognized_eq_next {command : Byte} {s s' : State} (h : unrecognized command s = .next s') :
    s' = s.raiseDiag (.unrecognizedCmd command) := by
  obtain ⟨b, _, h⟩ := whenSetUp_eq_next h
  cases h
  rfl

/-- Everything `completeFrame` can answer (R133): a dispatch on the cleared buffer, or the warning. -/
theorem completeFrame_eq_next {b : Block} {s s' : State} (h : completeFrame b s = .next s') :
    (∃ r, validate b.buf = true ∧ deserialize b.buf = some r ∧
      dispatch r (s.withBlock (bufClear b)) = .next s') ∨
    (∃ received, validate b.buf = false ∧
      s' = (s.withBlock (bufClear b)).raiseDiag (.checksumMismatch (cks b.buf.dropLast) received)) := by
  unfold completeFrame at h
  by_cases hv : validate b.buf = true
  · rw [if_pos hv] at h
    cases hd : deserialize b.buf with
    | none => simp only [hd] at h; cases h
    | some r => simp only [hd] at h; exact .inl ⟨r, hv, rfl, h⟩
  · rw [if_neg hv] at h
    obtain ⟨received, _, h⟩ := orFault_eq_next h
    cases h
    exact .inr ⟨received, by simpa using hv, rfl⟩

end Sys2Proof.Machine
end

