-- ==== Sys2Proof/Laws/Exec.lean ====
section
/-! SUPPORT. What one instruction can do, said once (`exec_cases`), for every invariant and every frame to
cite; how Dispatch is exec of the demultiplexed command; and how runs compose. -/

namespace Sys2Proof.Machine

/-- The block after an instruction and the events it emits, by kind of effect. `buf` is left open: the
reassembler's own lemmas speak of it. -/
inductive Effect (cfg : Config) (b : Block) (i : Instr) : Block → List Out → Prop
  /-- SETUP. -/
  | reset (h : i = .setup) : Effect cfg b i (blockAfterSetup cfg) []
  /-- No event; at most the buffer changes. -/
  | quiet (m : Memory) : Effect cfg b i { b with buf := m } []
  /-- A status label. -/
  | status (m : Memory) (l : StatusLabel) : Effect cfg b i { b with buf := m } [.status l]
  /-- A diagnostic. -/
  | diag (m : Memory) (d : Diag) : Effect cfg b i { b with buf := m } [.diag d]
  /-- The product-info response to a request with sequence `q`. -/
  | answer (m : Memory) (q : Half) :
      Effect cfg b i
        { buf := m, seqCtr := if q = 0xFFFF then nextSeq b.seqCtr else b.seqCtr, initFlag := true }
        [.tx (frameLiteral (if q = 0xFFFF then b.seqCtr else q) 0x01 cfg.productInfo)]
  /-- A poll frame. -/
  | poll (h : b.initFlag = true) :
      Effect cfg b i { b with seqCtr := nextSeq b.seqCtr } [.tx (frameLiteral b.seqCtr 0x20 [])]
  /-- A reset or rejoin frame. -/
  | mode (x : Byte) :
      Effect cfg b i { b with seqCtr := nextSeq b.seqCtr } [.tx (frameLiteral b.seqCtr 0x03 [x])]

/-- Dispatch is exec of the command the demultiplexer reads (42_dispatcher.md R160). -/
theorem dispatch_eq_exec (r : FrameFields) (s : State) : dispatch r s = exec (demux r) s := by
  unfold dispatch demux
  split
  · rfl
  split
  · rfl
  split
  · rfl
  split <;> rfl

theorem demux_isFrameCommand (r : FrameFields) : (demux r).isFrameCommand = true := by
  unfold demux
  repeat' split
  all_goals rfl

/-- A block that differs from `b` in its buffer alone. -/
theorem Block.eq_with_buf {b b' : Block} (hc : b.seqCtr = b'.seqCtr) (hf : b.initFlag = b'.initFlag) :
    b' = { b with buf := b'.buf } := by
  cases b
  cases b'
  simp_all

/-- An event emitted on a block that is kept is the block's own effect, whatever its buffer was before. -/
theorem emit_eq_withBlock {s : State} {b : Block} (hb : s.block = some b) (o : Out) :
    s.emit o = { s with block := some b, out := s.out ++ [o] } := by
  rw [← hb]
  rfl

/-- A frame command's effect, seen from any block `b0` that has the same counter and flag: the block whose
buffer RX_BYTE cleared before it dispatched. -/
theorem exec_frame_cases {s s' : State} {b : Block} {i : Instr} (hb : s.block = some b)
    (hf : i.isFrameCommand = true) (h : exec i s = .next s') :
    ∃ b' o, s' = { s with block := some b', out := s.out ++ o } ∧
      ∀ b0 : Block, b0.seqCtr = b.seqCtr → b0.initFlag = b.initFlag → ∀ j, Effect s.cfg b0 j b' o := by
  have status : ∀ command payload, networkStatus command payload s = .next s' →
      ∃ b' o, s' = { s with block := some b', out := s.out ++ o } ∧
        ∀ b0 : Block, b0.seqCtr = b.seqCtr → b0.initFlag = b.initFlag → ∀ j, Effect s.cfg b0 j b' o := by
    intro command payload h
    obtain ⟨o, rfl, ho⟩ := networkStatus_eq_next h
    refine ⟨b, [o], emit_eq_withBlock hb o, fun b0 hc hi j => ?_⟩
    rw [Block.eq_with_buf hc hi]
    rcases ho with rfl | ⟨code, rfl⟩
    · exact .diag _ _
    · exact .status _ _
  have logged : ∀ command, unrecognized command s = .next s' →
      ∃ b' o, s' = { s with block := some b', out := s.out ++ o } ∧
        ∀ b0 : Block, b0.seqCtr = b.seqCtr → b0.initFlag = b.initFlag → ∀ j, Effect s.cfg b0 j b' o := by
    intro command h
    refine ⟨b, _, (unrecognized_eq_next h).trans (emit_eq_withBlock hb _), fun b0 hc hi j => ?_⟩
    rw [Block.eq_with_buf hc hi]
    exact .diag _ _
  cases i with
  | queryProductInfo v q p =>
    simp only [exec, execQueryProductInfo, whenSetUp_some hb, sendFrame_eq] at h
    cases h
    exact ⟨_, _, rfl, fun b0 hc _ j => by rw [← hc]; exact .answer _ _⟩
  | syncNetworkStatus v q p => exact status _ _ h
  | queryNetworkStatus v q p => exact status _ _ h
  | resetModuleInbound v q p => exact logged _ h
  | unrecognizedCmd v q c p => exact logged _ h
  | setup => cases hf
  | rxByte data => cases hf
  | pollCheck due => cases hf
  | resetRestart => cases hf
  | leaveRejoin => cases hf
  | dump => cases hf

/-- RX_BYTE's effect on a block that is set up. -/
theorem execRxByte_cases {s s' : State} {b : Block} {data : Byte} (hb : s.block = some b)
    (h : execRxByte data s = .next s') :
    ∃ b' o, s' = { s with block := some b', out := s.out ++ o } ∧ Effect s.cfg b (.rxByte data) b' o := by
  have kept : ∀ m, Host.Outcome.next (s.withBlock { b with buf := m }) = (Host.Outcome.next s' : Answer) →
      ∃ b' o, s' = { s with block := some b', out := s.out ++ o } ∧
        Effect s.cfg b (.rxByte data) b' o := by
    intro m hm
    cases hm
    exact ⟨{ b with buf := m }, [], by rw [List.append_nil]; rfl, .quiet m⟩
  simp only [execRxByte, whenSetUp_some hb] at h
  split at h
  · unfold rxSearching at h
    split at h
    · obtain ⟨b1, ha, h⟩ := orFault_eq_next h
      obtain ⟨_, rfl⟩ := bufAppend_eq_ok ha
      exact kept _ h
    · cases h
      exact ⟨b, [], by rw [List.append_nil, ← hb], .quiet b.buf⟩
  · obtain ⟨b1, ha, h⟩ := orFault_eq_next h
    obtain ⟨_, rfl⟩ := bufAppend_eq_ok ha
    obtain ⟨x, _, h⟩ := orFault_eq_next h
    obtain ⟨y, _, h⟩ := orFault_eq_next h
    split at h
    · exact kept _ h
    · cases h
      exact ⟨{ b with buf := [] }, _, rfl, .diag [] _⟩
  · obtain ⟨b1, ha, h⟩ := orFault_eq_next h
    obtain ⟨_, rfl⟩ := bufAppend_eq_ok ha
    split at h
    · obtain ⟨lenHi, _, h⟩ := orFault_eq_next h
      obtain ⟨lenLo, _, h⟩ := orFault_eq_next h
      split at h
      · rcases completeFrame_eq_next h with ⟨r, _, _, h⟩ | ⟨received, _, rfl⟩
        · rw [dispatch_eq_exec] at h
          obtain ⟨b', o, hs', he⟩ := exec_frame_cases rfl (demux_isFrameCommand r) h
          exact ⟨b', o, hs', he b rfl rfl _⟩
        · exact ⟨{ b with buf := [] }, _, rfl, .diag [] _⟩
      · exact kept _ h
    · exact kept _ h

/-- What an instruction can do to a block that is set up, said once. -/
theorem exec_cases {s s' : State} {b : Block} {i : Instr} (hb : s.block = some b)
    (h : exec i s = .next s') :
    ∃ b' o, s' = { s with block := some b', out := s.out ++ o } ∧ Effect s.cfg b i b' o := by
  have quiet : s = { s with block := some b, out := s.out ++ [] } := by rw [← hb, List.append_nil]
  have sent : ∀ mode, sendReset mode s = .next s' →
      ∃ b' o, s' = { s with block := some b', out := s.out ++ o } ∧ Effect s.cfg b i b' o := by
    intro mode h
    simp only [sendReset, whenSetUp_some hb, sendFrame_eq] at h
    cases h
    exact ⟨_, _, rfl, .mode _⟩
  by_cases hf : i.isFrameCommand = true
  · obtain ⟨b', o, hs', he⟩ := exec_frame_cases hb hf h
    exact ⟨b', o, hs', he b rfl rfl i⟩
  cases i with
  | queryProductInfo v q p => exact absurd rfl hf
  | syncNetworkStatus v q p => exact absurd rfl hf
  | resetModuleInbound v q p => exact absurd rfl hf
  | queryNetworkStatus v q p => exact absurd rfl hf
  | unrecognizedCmd v q c p => exact absurd rfl hf
  | setup =>
    cases h
    exact ⟨_, [], by rw [List.append_nil]; rfl, .reset rfl⟩
  | rxByte data => exact execRxByte_cases hb h
  | pollCheck due =>
    simp only [exec, execPollCheck, whenSetUp_some hb] at h
    split at h
    · rename_i ha
      rw [sendPoll, sendFrame_eq] at h
      cases h
      refine ⟨_, _, rfl, .poll ?_⟩
      unfold pollArmed at ha
      simp only [Bool.and_eq_true] at ha
      exact ha.1
    · cases h
      exact ⟨b, [], quiet, .quiet b.buf⟩
  | resetRestart => exact sent _ h
  | leaveRejoin => exact sent _ h
  | dump =>
    simp only [exec, execDump, whenSetUp_some hb] at h
    cases h
    exact ⟨b, _, emit_eq_withBlock hb _, .diag b.buf _⟩

/-! ### Runs -/

theorem runEvents_cons_next {i : Instr} {is : List Instr} {s s' : State} (h : exec i s = .next s') :
    runEvents (i :: is) s = runEvents is s' := by
  simp only [runEvents, h]

/-- A run that has come to `s'` goes on from there. -/
theorem runEvents_append_next {is js : List Instr} {s s' : State} (h : runEvents is s = .next s') :
    runEvents (is ++ js) s = runEvents js s' := by
  induction is generalizing s with
  | nil =>
    cases h
    rfl
  | cons i is ih =>
    simp only [List.cons_append, runEvents] at h ⊢
    cases hi : exec i s with
    | next s1 => simp only [hi] at h ⊢; exact ih h
    | fault f => simp only [hi] at h; cases h
    | refused r => simp only [hi] at h; cases h

theorem receive_append_next {p q : List Byte} {s s' : State} (h : receive p s = .next s') :
    receive (p ++ q) s = receive q s' := by
  unfold receive rxEvents at *
  rw [List.map_append]
  exact runEvents_append_next h

theorem receive_singleton (data : Byte) (s : State) : receive [data] s = exec (.rxByte data) s := by
  simp only [receive, rxEvents, List.map, runEvents]
  cases exec (.rxByte data) s <;> rfl

end Sys2Proof.Machine
end

