-- ==== Sys2Proof/Laws/PerInstr.lean ====
section
/-! SUPPORT. Statements made per instruction. `EncodingForm`: the encoding of a well-formed instruction has
the form its table row gives it: a host operation is one word that exactly one row of 30_encoding.md R83
takes; a frame command is a header-checked frame of 9 to 65544 bytes with a right checksum (R70, R71, R75,
R76). -/

namespace Sys2Proof.Laws.EncodingForm

def Statement (i : Instr) : Prop :=
  i.wellFormed = true →
    match encode i with
    | .hostWord w => i.isFrameCommand = false ∧ (hostOpRows.filter (·.takes w)).length = 1
    | .frame f =>
      i.isFrameCommand = true ∧ f.take 2 = [hdr0, hdr1] ∧ 9 ≤ f.length ∧ f.length ≤ 65544 ∧
        validate f = true

/-- The form of any frame whose payload fits. -/
theorem frame_form (r : FrameFields) (h : r.payload.length ≤ 65535) :
    (encodeFrame r).take 2 = [hdr0, hdr1] ∧ 9 ≤ (encodeFrame r).length ∧
      (encodeFrame r).length ≤ 65544 ∧ validate (encodeFrame r) = true := by
  refine ⟨rfl, ?_, ?_, validate_encodeFrame r⟩ <;> rw [encodeFrame_length] <;> omega

theorem queryProductInfo (v : Byte) (q : Half) (p : List Byte) : Statement (.queryProductInfo v q p) :=
  fun h => ⟨rfl, frame_form _ (of_decide_eq_true h)⟩

theorem syncNetworkStatus (v : Byte) (q : Half) (p : List Byte) : Statement (.syncNetworkStatus v q p) :=
  fun h => ⟨rfl, frame_form _ (of_decide_eq_true h)⟩

theorem resetModuleInbound (v : Byte) (q : Half) (p : List Byte) : Statement (.resetModuleInbound v q p) :=
  fun h => ⟨rfl, frame_form _ (of_decide_eq_true h)⟩

theorem queryNetworkStatus (v : Byte) (q : Half) (p : List Byte) : Statement (.queryNetworkStatus v q p) :=
  fun h => ⟨rfl, frame_form _ (of_decide_eq_true h)⟩

theorem unrecognizedCmd (v : Byte) (q : Half) (c : Byte) (p : List Byte) :
    Statement (.unrecognizedCmd v q c p) := by
  intro h
  simp only [Instr.wellFormed, Bool.and_eq_true] at h
  exact ⟨rfl, frame_form _ (of_decide_eq_true h.1)⟩

theorem setup : Statement .setup := fun _ => ⟨rfl, by decide⟩

theorem rxByte (data : Byte) : Statement (.rxByte data) := fun _ => ⟨rfl, by revert data; decide⟩

theorem pollCheck (due : Bool) : Statement (.pollCheck due) := fun _ => ⟨rfl, by revert due; decide⟩

theorem resetRestart : Statement .resetRestart := fun _ => ⟨rfl, by decide⟩

theorem leaveRejoin : Statement .leaveRejoin := fun _ => ⟨rfl, by decide⟩

theorem dump : Statement .dump := fun _ => ⟨rfl, by decide⟩

end Sys2Proof.Laws.EncodingForm
end

