-- ==== Sys2Proof/Tests/Slice0.lean ====
section
/-! SUPPORT. The model's own tests. Every expected value is the spec's: a table of 30_encoding.md, a worked
example of a rule, or a vector of 95_test_vectors.md, named in the comment. After them, for every obligation
with hypotheses, a witness that meets them. -/

namespace Sys2Proof.Tests

open Sys2Proof.Machine

/-- The configuration of 95_test_vectors.md: the example `PRODUCT_INFO = [41 42]`; an interval of 30. -/
def exampleConfig : Config where
  productInfo := [0x41, 0x42]
  pollInterval := 30
  seqInit := 0x0000
  notConnectedText := ""
  networkErrorText := ""
  pairingText := ""
  unknownText := ""
  productInfo_le := by decide
  seqInit_le := by decide

/-- A block that is set up, with no event emitted and none presented. -/
def running (buf : List Byte) (seqCtr : Half) (initFlag : Bool) : State :=
  { cfg := exampleConfig, block := some { buf := buf, seqCtr := seqCtr, initFlag := initFlag },
    input := [], out := [] }

/-- The block before its first SETUP. -/
def unset : State := { cfg := exampleConfig, block := none, input := [], out := [] }

/-- What a step shows: the block after it and the events emitted. -/
def shown (a : Answer) : Option (Option Block × List Out) := (next? a).map fun s => (s.block, s.out)

/-- The request of L1-1 but for its checksum byte. -/
def request : List Byte := [0x55, 0xAA, 0x02, 0x00, 0x01, 0x01, 0x00, 0x00]

theorem payloadFits_replicate (n : Nat) (x : Byte) :
    payloadFits (List.replicate n x) = decide (n ≤ 65535) := by
  unfold payloadFits
  rw [List.length_replicate]

theorem longest_payload_fits : payloadFits (List.replicate 65535 0) = true := by
  rw [payloadFits_replicate]
  decide

theorem longer_payload_does_not_fit : payloadFits (List.replicate 65536 0) = false := by
  rw [payloadFits_replicate]
  decide

theorem replicate_65535_length (x : Byte) : (List.replicate 65535 x).length ≤ 65535 := by
  rw [List.length_replicate]

/-! ### WellFormed refuses an ill-formed term of each kind -/

theorem test_wellFormed_rejects_long_request :
    (Instr.queryProductInfo 0x02 0 (List.replicate 65536 0)).wellFormed = false :=
  longer_payload_does_not_fit

theorem test_wellFormed_rejects_long_push :
    (Instr.syncNetworkStatus 0x02 0 (List.replicate 65536 0)).wellFormed = false :=
  longer_payload_does_not_fit

theorem test_wellFormed_rejects_long_inbound_reset :
    (Instr.resetModuleInbound 0x02 0 (List.replicate 65536 0)).wellFormed = false :=
  longer_payload_does_not_fit

theorem test_wellFormed_rejects_long_status :
    (Instr.queryNetworkStatus 0x02 0 (List.replicate 65536 0)).wellFormed = false :=
  longer_payload_does_not_fit

theorem test_wellFormed_rejects_long_unrecognized :
    (Instr.unrecognizedCmd 0x02 0 0x07 (List.replicate 65536 0)).wellFormed = false := by
  show (payloadFits (List.replicate 65536 0) && !isNamedCommand 0x07) = false
  rw [longer_payload_does_not_fit]
  rfl

theorem test_wellFormed_rejects_named_command :
    [0x01, 0x02, 0x03, 0x20].map (fun c => (Instr.unrecognizedCmd 0x02 0 c []).wellFormed) =
      [false, false, false, false] := by decide

/-- A configuration that breaks R108's bound is refused. -/
theorem test_config_rejects_long_product_info :
    Config.build (List.replicate 65536 0) 0 0 "" "" "" "" = .error (.productInfoTooLong 65536) := by
  unfold Config.build
  rw [dif_neg (by rw [List.length_replicate]; decide), List.length_replicate]

/-- D4: SEQ_INIT lies in 0..FFF0. -/
theorem test_config_rejects_seq_init :
    Config.build [] 0 0xFFF1 "" "" "" "" = .error (.seqInitOutOfRange 0xFFF1) := by decide

/-! ### Decoding: a word of every constructor, written out from R83 or R70 -/

theorem test_decode_setup : decode (.hostWord 0x1000) = .ok .setup := by decide
theorem test_decode_rxByte : decode (.hostWord 0x20AA) = .ok (.rxByte 0xAA) := by decide
theorem test_decode_pollCheck :
    decode (.hostWord 0x3100) = .ok (.pollCheck true) ∧
    decode (.hostWord 0x3000) = .ok (.pollCheck false) := by decide
theorem test_decode_resetRestart : decode (.hostWord 0x4000) = .ok .resetRestart := by decide
theorem test_decode_leaveRejoin : decode (.hostWord 0x5000) = .ok .leaveRejoin := by decide
theorem test_decode_dump : decode (.hostWord 0x6000) = .ok .dump := by decide

/-- L1-1. -/
theorem test_decode_queryProductInfo :
    decode (.frame [0x55, 0xAA, 0x02, 0x00, 0x01, 0x01, 0x00, 0x00, 0x03]) =
      .ok (.queryProductInfo 0x02 0x0001 []) := by decide

/-- The last frame of P2: sequence 0100, payload 03 EE. -/
theorem test_decode_syncNetworkStatus :
    decode (.frame [0x55, 0xAA, 0x02, 0x01, 0x00, 0x02, 0x00, 0x02, 0x03, 0xEE, 0xF7]) =
      .ok (.syncNetworkStatus 0x02 0x0100 [0x03, 0xEE]) := by decide

/-- DS-7. -/
theorem test_decode_resetModuleInbound :
    decode (.frame [0x55, 0xAA, 0x02, 0x00, 0x00, 0x03, 0x00, 0x01, 0x00, 0x05]) =
      .ok (.resetModuleInbound 0x02 0x0000 [0x00]) := by decide

/-- DE-1. -/
theorem test_decode_queryNetworkStatus :
    decode (.frame [0x55, 0xAA, 0x02, 0x00, 0x05, 0x20, 0x00, 0x01, 0x03, 0x2A]) =
      .ok (.queryNetworkStatus 0x02 0x0005 [0x03]) := by decide

/-- RA-9: a header inside the payload is payload. -/
theorem test_decode_unrecognizedCmd :
    decode (.frame [0x55, 0xAA, 0x02, 0x00, 0x00, 0x07, 0x00, 0x03, 0x55, 0xAA, 0x02, 0x0C]) =
      .ok (.unrecognizedCmd 0x02 0x0000 0x07 [0x55, 0xAA, 0x02]) := by decide

/-- HO-11 and R83: reserved op, and a bit set where the mask requires zero. -/
theorem test_decode_reserved_words :
    [0x7000, 0x2100, 0x0000, 0xF000, 0x3001, 0x3200, 0x1001].map (fun w => decode (.hostWord w)) =
      [.error (.reservedHostOp 0x7000), .error (.reservedHostOp 0x2100), .error (.reservedHostOp 0x0000),
       .error (.reservedHostOp 0xF000), .error (.reservedHostOp 0x3001), .error (.reservedHostOp 0x3200),
       .error (.reservedHostOp 0x1001)] := by decide

/-- L1-1x: the frame with its trailer as the source prints it. -/
theorem test_decode_bad_checksum :
    decode (.frame [0x55, 0xAA, 0x02, 0x00, 0x01, 0x01, 0x00, 0x00, 0xCB]) =
      .error (.badChecksum 0x03 0xCB) := by decide

theorem test_decode_bad_frames :
    decode (.frame [0x55]) = .error (.frameTooShort 1) ∧
    decode (.frame [0x55, 0x55, 0x02, 0x00, 0x01, 0x01, 0x00, 0x00, 0x03]) = .error (.badHeader 0x55 0x55) ∧
    decode (.frame [0x55, 0xAA, 0x02, 0x00, 0x01, 0x01, 0x00, 0x01, 0x04]) = .error (.badLength 9 10) := by
  decide

/-- No two rows of R83 take the same word: the rows agree on the op nibble of no two matches. -/
theorem test_hostOp_rows_disjoint :
    (hostOpRows.map fun row => (row.matchBits.extractLsb' 12 4).toNat) = [1, 2, 3, 4, 5, 6] ∧
    (hostOpRows.map fun row => (row.maskBits.extractLsb' 12 4).toNat) = [15, 15, 15, 15, 15, 15] := by
  decide

/-- The opcode table's rows, in its numbering. -/
theorem test_decode_table_words :
    decodeTableWord 8 0x01 = some (.queryProductInfo 0x00 0x0000 []) ∧
    decodeTableWord 8 0x20 = some (.queryNetworkStatus 0x00 0x0000 []) ∧
    decodeTableWord 8 0x00 = some (.unrecognizedCmd 0x00 0x0000 0x00 []) ∧
    decodeTableWord 16 0x2000 = some (.rxByte 0x00) ∧
    decodeTableWord 16 0x7000 = none := by decide

/-- Program P1 of 95_test_vectors.md, its trace and the encoding printed there. -/
theorem test_trace_words_P1 :
    traceWords [.setup, .drive [0x55, 0xAA, 0x02, 0x00, 0x01, 0x01, 0x00, 0x00, 0x03] true,
      .drive [0x55, 0xAA, 0x02, 0x00, 0x00, 0x20, 0x00, 0x01, 0x01, 0x23] false] =
    [0x1000, 0x2055, 0x20AA, 0x2002, 0x2000, 0x2001, 0x2001, 0x2000, 0x2000, 0x2003, 0x3100,
     0x2055, 0x20AA, 0x2002, 0x2000, 0x2000, 0x2020, 0x2000, 0x2001, 0x2001, 0x2023, 0x3000] := by decide

/-! ### The codec -/

/-- CK-2 to CK-4, CK-6, CK-7. -/
theorem test_cks_vectors :
    [[0x55, 0xAA], [0x55, 0xAA, 0x02], [0xFF, 0x01], [0x80, 0x80], request].map cks =
      [0xFF, 0x01, 0x00, 0x00, 0x03] := by decide

/-- SQ-1. -/
theorem test_nextSeq_vectors :
    [0x0000, 0x0001, 0xFFEF, 0xFFF0, 0xFFF1, 0xFFFE, 0xFFFF].map nextSeq =
      [0x0001, 0x0002, 0xFFF0, 0x0000, 0x0000, 0x0000, 0x0000] := by decide

/-- SR-2, SR-5: the sentinel takes the counter; an explicit value above FFF0 is copied. -/
theorem test_serialize_vectors :
    serialize 0x20 [] 0xFFFF { buf := [], seqCtr := 0xFFEF, initFlag := false } =
      ([0x55, 0xAA, 0x02, 0xFF, 0xEF, 0x20, 0x00, 0x00, 0x0F],
       { buf := [], seqCtr := 0xFFF0, initFlag := false }) ∧
    serialize 0x01 [0x41, 0x42] 0xFFFE { buf := [], seqCtr := 0x0005, initFlag := false } =
      ([0x55, 0xAA, 0x02, 0xFF, 0xFE, 0x01, 0x00, 0x02, 0x41, 0x42, 0x84],
       { buf := [], seqCtr := 0x0005, initFlag := false }) := by decide

/-- VA-1, VA-2, VA-4, VA-6. -/
theorem test_validate_vectors :
    [[], [0x00], [0x55, 0xAA, 0x02, 0x00, 0x02, 0x01, 0x00, 0x00, 0x03],
     [0x55, 0xAA, 0x02, 0x01, 0x00, 0x01, 0x00, 0x00, 0x03]].map validate = [false, true, false, true] := by
  decide

/-- DE-3. -/
theorem test_deserialize_vector :
    deserialize [0x55, 0xAA, 0x02, 0xFF, 0xFF, 0x01, 0x00, 0x00, 0x00] =
      some { version := 0x02, sequence := 0xFFFF, command := 0x01, payload := [] } := by decide

/-! ### Steps: at most two an instruction -/

/-- DS-9: a request carrying the sentinel takes and advances the counter. -/
theorem test_queryProductInfo_sentinel :
    shown (exec (.queryProductInfo 0x02 0xFFFF []) (running [] 0x0010 false)) =
      some (some { buf := [], seqCtr := 0x0011, initFlag := true },
        [.tx [0x55, 0xAA, 0x02, 0x00, 0x10, 0x01, 0x00, 0x02, 0x41, 0x42, 0x97]]) := by decide

/-- L1-1, its last byte: the response carries the request's sequence number. -/
theorem test_rxByte_completes_request :
    shown (exec (.rxByte 0x03) (running request 0x0000 false)) =
      some (some { buf := [], seqCtr := 0x0000, initFlag := true },
        [.tx [0x55, 0xAA, 0x02, 0x00, 0x01, 0x01, 0x00, 0x02, 0x41, 0x42, 0x88]]) := by decide

/-- L1-1x, its last byte. -/
theorem test_rxByte_bad_checksum :
    shown (exec (.rxByte 0xCB) (running request 0x0000 false)) =
      some (some { buf := [], seqCtr := 0x0000, initFlag := false },
        [.diag (.checksumMismatch 0x03 0xCB)]) := by decide

/-- RA-3, its second byte: `55` after `55` is not kept. -/
theorem test_rxByte_doubled_header :
    shown (exec (.rxByte 0x55) (running [0x55] 0x0000 false)) =
      some (some { buf := [], seqCtr := 0x0000, initFlag := false },
        [.diag (.headerMismatch 0x55 0x55)]) := by decide

/-- DS-6: bytes after the first are ignored. -/
theorem test_syncNetworkStatus_label :
    shown (exec (.syncNetworkStatus 0x02 0x0007 [0x02, 0x01, 0x00]) (running [] 0x0000 false)) =
      some (some { buf := [], seqCtr := 0x0000, initFlag := false }, [.status .networkError]) := by decide

/-- DS-1. -/
theorem test_syncNetworkStatus_empty :
    shown (exec (.syncNetworkStatus 0x02 0x0000 []) (running [] 0x0000 false)) =
      some (some { buf := [], seqCtr := 0x0000, initFlag := false }, [.diag (.emptyStatus 0x02)]) := by decide

/-- DS-5. -/
theorem test_queryNetworkStatus_label :
    shown (exec (.queryNetworkStatus 0x02 0x0005 [0x03]) (running [] 0x0000 true)) =
      some (some { buf := [], seqCtr := 0x0000, initFlag := true }, [.status .pairing]) := by decide

/-- DS-2. -/
theorem test_queryNetworkStatus_empty :
    shown (exec (.queryNetworkStatus 0x02 0x0000 []) (running [] 0x0000 false)) =
      some (some { buf := [], seqCtr := 0x0000, initFlag := false }, [.diag (.emptyStatus 0x20)]) := by decide

/-- DS-7. -/
theorem test_resetModuleInbound_dropped :
    shown (exec (.resetModuleInbound 0x02 0x0000 [0x00]) (running [] 0x0005 true)) =
      some (some { buf := [], seqCtr := 0x0005, initFlag := true }, [.diag (.unrecognizedCmd 0x03)]) := by
  decide

/-- DS-8. -/
theorem test_unrecognizedCmd_dropped :
    shown (exec (.unrecognizedCmd 0x02 0x0000 0x07 []) (running [] 0x0000 false)) =
      some (some { buf := [], seqCtr := 0x0000, initFlag := false }, [.diag (.unrecognizedCmd 0x07)]) := by
  decide

/-- HO-9, and R190 from `Unset`. -/
theorem test_setup_resets :
    shown (exec .setup (running [0x55, 0xAA] 0x0042 true)) =
      some (some { buf := [], seqCtr := 0x0000, initFlag := false }, []) ∧
    shown (exec .setup unset) =
      some (some { buf := [], seqCtr := 0x0000, initFlag := false }, []) := by decide

/-- HO-4, its first poll. -/
theorem test_pollCheck_wraps :
    shown (exec (.pollCheck true) (running [] 0xFFF0 true)) =
      some (some { buf := [], seqCtr := 0x0000, initFlag := true },
        [.tx [0x55, 0xAA, 0x02, 0xFF, 0xF0, 0x20, 0x00, 0x00, 0x10]]) := by decide

/-- HO-1, HO-2. -/
theorem test_pollCheck_skipped :
    shown (exec (.pollCheck true) (running [] 0x0000 false)) =
      some (some { buf := [], seqCtr := 0x0000, initFlag := false }, []) ∧
    shown (exec (.pollCheck false) (running [] 0x0000 true)) =
      some (some { buf := [], seqCtr := 0x0000, initFlag := true }, []) := by decide

/-- HO-5. -/
theorem test_resetRestart_frame :
    shown (exec .resetRestart (running [] 0x0000 false)) =
      some (some { buf := [], seqCtr := 0x0001, initFlag := false },
        [.tx [0x55, 0xAA, 0x02, 0x00, 0x00, 0x03, 0x00, 0x01, 0x00, 0x05]]) := by decide

/-- HO-6, its second event. -/
theorem test_leaveRejoin_frame :
    shown (exec .leaveRejoin (running [] 0x0001 true)) =
      some (some { buf := [], seqCtr := 0x0002, initFlag := true },
        [.tx [0x55, 0xAA, 0x02, 0x00, 0x01, 0x03, 0x00, 0x01, 0x01, 0x07]]) := by decide

/-- HO-8. -/
theorem test_dump_reports :
    shown (exec .dump (running [0x55] 0x0000 false)) =
      some (some { buf := [0x55], seqCtr := 0x0000, initFlag := false }, [.diag (.dumpReport 30)]) := by
  decide

/-- HO-10, HO-11: refused in `Unset`, and a reserved word in any state. -/
theorem test_refusals :
    exec (.rxByte 0x55) unset = .refused .notSetUp ∧
    step (unset.present [0x7000]) = .refused (.reservedHostOp 0x7000) ∧
    step ((running [] 0 false).present [0x2100]) = .refused (.reservedHostOp 0x2100) := ⟨rfl, rfl, rfl⟩

/-- After `withFetchWord` the very next step runs the row's instruction, from reset. -/
theorem test_withFetchWord_runs_first :
    step (State.reset.withFetchWord 8 0x02) = exec (.syncNetworkStatus 0x00 0x0000 []) State.reset ∧
    step (State.reset.withFetchWord 8 0x07) = exec (.unrecognizedCmd 0x00 0x0000 0x07 []) State.reset ∧
    step (State.reset.withFetchWord 16 0x2055) = exec (.rxByte 0x55) State.reset := ⟨rfl, rfl, rfl⟩

/-- R231: due at the interval with `>=`, not with `>`; the reading wraps modulo `2^TIME_W`. -/
theorem test_dueAt_boundary :
    dueAt { lastPollInit := 0, cmp := .atLeast } (20#8) { base := running [] 0 true, lastPoll := 246 } = true ∧
    dueAt { lastPollInit := 0, cmp := .moreThan } (20#8) { base := running [] 0 true, lastPoll := 246 } = false ∧
    dueAt { lastPollInit := 0, cmp := .atLeast } (19#8) { base := running [] 0 true, lastPoll := 246 } = false := by
  decide

/-! ### Witnesses: for every obligation with hypotheses, values that meet all of them -/

/-- An instruction that is well formed at the largest payload. -/
theorem longest_payload_wellFormed (v : Byte) (q : Half) :
    (Instr.syncNetworkStatus v q (List.replicate 65535 0)).wellFormed = true :=
  longest_payload_fits

theorem witness_DecodeInvertsEncode :
    (Instr.queryProductInfo 0x03 0xFFFF []).wellFormed = true ∧
    (Instr.syncNetworkStatus 0xFF 0x0000 (List.replicate 65535 0)).wellFormed = true ∧
    (Instr.rxByte 0xFF).wellFormed = true :=
  ⟨by decide, longest_payload_wellFormed _ _, by decide⟩

theorem witness_EncodeInvertsDecode :
    decode (.hostWord 0x20FF) = .ok (.rxByte 0xFF) ∧
    decode (.frame (request ++ [0x03])) = .ok (.queryProductInfo 0x02 0x0001 []) := by decide

theorem witness_SerializeBuildsTheFrame :
    ([] : List Byte).length ≤ 65535 ∧ (List.replicate 65535 (0xFF : Byte)).length ≤ 65535 ∧
    (Block.mk [] 0x0000 false).seqCtr = 0x0000 := ⟨by decide, replicate_65535_length _, rfl⟩

theorem witness_SerializedFramesReadBack :
    ([] : List Byte).length ≤ 65535 ∧ (List.replicate 65535 (0xFF : Byte)).length ≤ 65535 :=
  ⟨by decide, replicate_65535_length _⟩

theorem witness_CounterCountsModulo65521 :
    (0x0000 : Half) ≤ 0xFFF0 ∧ (0xFFF0 : Half) ≤ 0xFFF0 ∧ (0xFFF0 : Half) ≤ 0xFFFF := by decide

theorem witness_SentinelCallsAssignSuccessiveValues :
    (Block.mk [] 0xFFF0 false).seqCtr ≤ 0xFFF0 ∧ (0xFFFE : Half) ≠ 0xFFFF := by decide

theorem witness_SingleByteChangeIsDetected :
    validate (request ++ [0x03]) = true ∧ (request ++ [0x03])[8] ≠ 0xCB ∧
    validate [0x00] = true ∧ ([0x00] : List Byte)[0] ≠ 0x01 := by decide

/-- VA-3 and VA-6: bytes 3 and 4 swapped. -/
theorem witness_ReorderingIsNotDetected :
    List.Perm request [0x55, 0xAA, 0x02, 0x01, 0x00, 0x01, 0x00, 0x00] := by decide

theorem witness_SearchingKeepsOnlyTheHeaderByte :
    ∃ b, (running [] 0x0000 false).block = some b ∧ b.buf = [] := ⟨_, rfl, rfl⟩

theorem witness_HeaderWaitChecksBothBytes :
    ∃ b, (running [0x55] 0x0000 false).block = some b ∧ b.buf = [0x55] := ⟨_, rfl, rfl⟩

/-- The 7th byte, the 8th byte of a 9-byte frame, and the last byte the buffer has room for. -/
theorem witness_AccumulatingAppends :
    (∃ b, (running (request.take 6) 0 false).block = some b ∧ 2 ≤ b.buf.length ∧ b.buf.length < 65544 ∧
      b.buf.length + 1 < 8) ∧
    (∃ b, (running (request.take 7) 0 false).block = some b ∧ 2 ≤ b.buf.length ∧ b.buf.length < 65544 ∧
      b.buf.length + 1 ≠
        8 + (be16 ((b.buf ++ [0x00]).getD 6 0) ((b.buf ++ [0x00]).getD 7 0)).toNat + 1) ∧
    (∃ b, (running (List.replicate 65543 0x00) 0 false).block = some b ∧ 2 ≤ b.buf.length ∧
      b.buf.length < 65544) :=
  ⟨⟨_, rfl, by decide⟩, ⟨_, rfl, by decide⟩,
    ⟨_, rfl, by rw [List.length_replicate]; omega, by rw [List.length_replicate]; omega⟩⟩

theorem witness_CompletionRunsTheDecodedCommand :
    ∃ b, (running request 0 false).block = some b ∧
      decodeFrame (b.buf ++ [0x03]) = .ok (.queryProductInfo 0x02 0x0001 []) := ⟨_, rfl, by decide⟩

theorem witness_CompletionDropsABadFrame :
    ∃ b, (running request 0 false).block = some b ∧ 8 ≤ b.buf.length ∧
      b.buf.length + 1 = 8 + (be16 (b.buf.getD 6 0) (b.buf.getD 7 0)).toNat + 1 ∧ cks b.buf ≠ 0xCB :=
  ⟨_, rfl, by decide⟩

theorem witness_UnreachableBuffersStop :
    (∃ b, (running (List.replicate 65544 0x00) 0 false).block = some b ∧ 65544 ≤ b.buf.length) ∧
    (∃ b, (running [0, 0, 0, 0, 0, 0, 0, 0] 0 false).block = some b ∧ 8 ≤ b.buf.length ∧
      b.buf.length + 1 = 8 + (be16 (b.buf.getD 6 0) (b.buf.getD 7 0)).toNat + 1 ∧ cks b.buf = 0x00 ∧
      deserialize (b.buf ++ [0x00]) = none) :=
  ⟨⟨_, rfl, by rw [List.length_replicate]⟩, ⟨_, rfl, by decide⟩⟩

theorem witness_EveryFrameFromSearchingIsDelivered :
    ∃ b, (running [] 0 false).block = some b ∧ b.buf = [] ∧
      (Instr.queryProductInfo 0x02 0x0001 []).wellFormed = true ∧
      encode (.queryProductInfo 0x02 0x0001 []) = .frame (request ++ [0x03]) :=
  ⟨_, rfl, rfl, by decide, by decide⟩

theorem witness_FramesInSequenceRunInSequence :
    ∃ b, (running [] 0 false).block = some b ∧ b.buf = [] ∧
      ∀ i ∈ [Instr.syncNetworkStatus 0x02 0 [0x00], .queryNetworkStatus 0x02 1 [0x03]],
        i.wellFormed = true ∧ i.isFrameCommand = true :=
  ⟨_, rfl, rfl, by decide⟩

theorem witness_NoiseIsDiscardedSilently :
    ∃ b, (running [] 0 false).block = some b ∧ b.buf = [] ∧ (0x55 : Byte) ∉ [0x01, 0xAA, 0x00, 0xFF] :=
  ⟨_, rfl, rfl, by decide⟩

/-- RA-4: `55 55`, then a frame. -/
theorem witness_HeaderMismatchDropsBothBytes :
    ∃ b, (running [] 0 false).block = some b ∧ b.buf = [] ∧ (0x55 : Byte) ≠ 0xAA ∧ (0x55 : Byte) ∉ [] ∧
      (Instr.syncNetworkStatus 0x02 0 [0x01]).wellFormed = true ∧
      encode (.syncNetworkStatus 0x02 0 [0x01]) =
        .frame [0x55, 0xAA, 0x02, 0x00, 0x00, 0x02, 0x00, 0x01, 0x01, 0x05] :=
  ⟨_, rfl, rfl, by decide, by decide, by decide, by decide⟩

/-- RA-7's first 14 bytes, with a frame's first bytes inside the span. -/
theorem witness_CorruptSpanIsDroppedWhole :
    ∃ (b : Block) (f : List Byte), (running [] 0 false).block = some b ∧ b.buf = [] ∧
      f = [0x55, 0xAA, 0x02, 0x00, 0x00, 0x02, 0x00, 0x05, 0x01, 0x05, 0x55, 0xAA, 0x02] ∧
      f[0]? = some 0x55 ∧ f[1]? = some 0xAA ∧ 8 ≤ f.length ∧
      f.length = 8 + (be16 (f.getD 6 0) (f.getD 7 0)).toNat ∧ cks f ≠ 0x00 :=
  ⟨_, _, rfl, rfl, rfl, by decide⟩

theorem witness_PartialFrameWaits :
    ∃ b, (running [] 0 false).block = some b ∧ b.buf = [] ∧
      (Instr.queryProductInfo 0x02 0x0001 []).wellFormed = true ∧
      encode (.queryProductInfo 0x02 0x0001 []) = .frame (request ++ [0x03]) ∧ ([0x03] : List Byte) ≠ [] :=
  ⟨_, rfl, rfl, by decide, by decide, by decide⟩

/-- HO-7: a poll after five bytes of a frame. -/
theorem witness_HostOperationMidFrameIsHarmless :
    ∃ b, (running [] 0 true).block = some b ∧ b.buf = [] ∧ (∃ due, Instr.pollCheck true = .pollCheck due) ∧
      (Instr.syncNetworkStatus 0x02 0 [0x01]).wellFormed = true ∧
      encode (.syncNetworkStatus 0x02 0 [0x01]) =
        .frame ([0x55, 0xAA, 0x02, 0x00, 0x00] ++ [0x02, 0x00, 0x01, 0x01, 0x05]) ∧
      ([0x02, 0x00, 0x01, 0x01, 0x05] : List Byte) ≠ [] :=
  ⟨_, rfl, rfl, ⟨true, rfl⟩, by decide, by decide, by decide⟩

theorem witness_VersionAndSequenceAreNotConsulted :
    ∃ (b : Block) (r : FrameFields), (running [] 0 false).block = some b ∧ b.buf = [] ∧
      r.payload.length ≤ 65535 ∧ r.command ≠ 0x01 :=
  ⟨_, { version := 0x03, sequence := 0x0000, command := 0x02, payload := [0x00] }, rfl, rfl, by decide⟩

/-- For every obligation whose only hypothesis is a block that is set up: QueryProductInfoAnswers,
StatusFramesPublishTheirLabel, EmptyStatusRaisesAWarning, OtherCommandsAreLoggedAndDropped,
ResetCommandsSendTheirMode, DumpReportsThePollInterval. -/
theorem witness_block_set_up : ∃ b, (running [0x55] 0xFFF0 true).block = some b := ⟨_, rfl⟩

theorem witness_EachFrameGivesExactlyOneOutput :
    ∃ b, (running [0x55] 0 true).block = some b ∧
      (Instr.syncNetworkStatus 0x02 0 []).isFrameCommand = true ∧
      ∀ v q p, Instr.syncNetworkStatus 0x02 0 [] ≠ .queryProductInfo v q p :=
  ⟨_, rfl, rfl, fun _ _ _ h => by cases h⟩

theorem witness_PollCheckSendsAPoll :
    ∃ b, (running [] 0xFFF0 true).block = some b ∧ b.initFlag = true := ⟨_, rfl, rfl⟩

theorem witness_PollCheckIsSkipped :
    (∃ b, (running [] 0 false).block = some b ∧ (b.initFlag = false ∨ true = false)) ∧
    (∃ b, (running [] 0 true).block = some b ∧ (b.initFlag = false ∨ false = false)) :=
  ⟨⟨_, rfl, .inl rfl⟩, ⟨_, rfl, .inr rfl⟩⟩

theorem witness_EventsBeforeSetupAreRefused : unset.block = none ∧ Instr.dump ≠ .setup :=
  ⟨rfl, by decide⟩

theorem witness_HandshakeThenPollInOnePass :
    ∃ (b : Block) (r : FrameFields), (running [] 0 false).block = some b ∧ b.buf = [] ∧
      r.command = 0x01 ∧ r.sequence ≠ 0xFFFF ∧ r.payload.length ≤ 65535 :=
  ⟨_, { version := 0x02, sequence := 0x0001, command := 0x01, payload := [] }, rfl, rfl, by decide⟩

theorem witness_StepRunsTheDecodedEvent :
    ((running [] 0 false).present [0x6000, 0x1000]).input = 0x6000 :: [0x1000] ∧
    decode (.hostWord 0x6000) = .ok .dump := by decide

theorem witness_ReservedWordsAreRefused :
    (unset.present [0x2100]).input = [0x2100] ∧ decode (.hostWord 0x2100) = .error (.reservedHostOp 0x2100) ∧
    (unset.present [0x0FFF]).input = [0x0FFF] ∧ (0x0FFF : Half).extractLsb' 12 4 = 0x0 ∧
    (unset.present [0x7000]).input = [0x7000] ∧ (0x7 : BitVec 4) ≤ (0x7000 : Half).extractLsb' 12 4 := by
  decide

theorem witness_IdleChangesNothing : (running [0x55] 0 true).input = [] := rfl

theorem witness_PresentedWordsRunInOrder :
    (∀ i ∈ [Instr.setup, .dump], i.isFrameCommand = false) ∧
    (unset.present [0x1000, 0x6000, 0x7000]).input = hostWords [.setup, .dump] ++ [0x7000] ∧
    ∃ s', runEvents [.setup, .dump] { unset.present [0x1000, 0x6000, 0x7000] with input := [0x7000] } =
      .next s' :=
  ⟨by decide, by decide, _, rfl⟩

/-- The invariants at their bounds: a frame one byte short, and the counter at `0xFFF0`. -/
theorem witness_StepKeepsTheInvariants :
    ∃ s', ((running request 0xFFF0 true).present [0x2003]).Inv ∧
      step ((running request 0xFFF0 true).present [0x2003]) = .next s' :=
  ⟨_, by decide, rfl⟩

theorem witness_EveryInstructionCompletes :
    (running request 0xFFF0 true).Inv ∧ (running request 0xFFF0 true).block ≠ none := by decide

theorem witness_StepStopsOnlyAtTheInputBoundary :
    ((running request 0xFFF0 true).present [0x2003]).Inv ∧ (unset.present [0x6000]).Inv ∧
    (unset.present [0x7000]).Inv := by decide

theorem witness_AdmittedRunsComplete :
    admittedRun [.setup, .rxByte 0x55, .pollCheck true, .setup] = true := by decide

theorem witness_StepEmitsAtMostOneOutput :
    ∃ s', step ((running [] 0 true).present [0x3100]) = .next s' := ⟨_, rfl⟩

theorem witness_ConfigurationIsNeverWritten :
    (∃ s', exec (.pollCheck true) (running [] 0 true) = .next s') ∧
    (∃ s', step ((running [] 0 true).present [0x3100]) = .next s') := ⟨⟨_, rfl⟩, ⟨_, rfl⟩⟩

/-- The flag rises by a request and falls by SETUP. -/
theorem witness_FlagWriters :
    (∃ s' b b', (running [] 0 false).block = some b ∧
      exec (.queryProductInfo 0x02 0x0001 []) (running [] 0 false) = .next s' ∧ s'.block = some b' ∧
      b'.initFlag ≠ b.initFlag) ∧
    (∃ s' b b', (running [] 0 true).block = some b ∧ exec .setup (running [] 0 true) = .next s' ∧
      s'.block = some b' ∧ b'.initFlag ≠ b.initFlag) :=
  ⟨⟨_, _, _, rfl, rfl, rfl, by decide⟩, ⟨_, _, _, rfl, rfl, rfl, by decide⟩⟩

/-- The counter moves by a reset command and by SETUP. -/
theorem witness_CounterWriters :
    (∃ s' b b', (running [] 0xFFF0 false).block = some b ∧
      exec .resetRestart (running [] 0xFFF0 false) = .next s' ∧ s'.block = some b' ∧
      b'.seqCtr ≠ b.seqCtr) ∧
    (∃ s' b b', (running [] 0x0042 true).block = some b ∧ exec .setup (running [] 0x0042 true) = .next s' ∧
      s'.block = some b' ∧ b'.seqCtr ≠ b.seqCtr) :=
  ⟨⟨_, _, _, rfl, rfl, rfl, by decide⟩, ⟨_, _, _, rfl, rfl, rfl, by decide⟩⟩

theorem witness_EverySentFrameIsWellFormed :
    ∃ s' o f, ((running [] 0xFFF0 true).present [0x3100]).Inv ∧
      step ((running [] 0xFFF0 true).present [0x3100]) = .next s' ∧
      s'.out = ((running [] 0xFFF0 true).present [0x3100]).out ++ o ∧ .tx f ∈ o :=
  ⟨_, [.tx (frameLiteral 0xFFF0 0x20 [])], frameLiteral 0xFFF0 0x20 [], by decide, rfl, rfl,
    List.mem_singleton.2 rfl⟩

/-- A handshake and a poll. -/
theorem witness_PollsOnlyAfterTheHandshake :
    ∃ s' before f, (∀ b ∈ (running [] 0 false).block, b.initFlag = false) ∧
      runEvents [.queryProductInfo 0x02 0x0001 [], .pollCheck true] (running [] 0 false) = .next s' ∧
      s'.out = (running [] 0 false).out ++ before ++ [.tx f] ++ [] ∧ f[5]? = some 0x20 :=
  ⟨_, [.tx (frameLiteral 0x0001 0x01 [0x41, 0x42])], frameLiteral 0x0000 0x20 [], by decide, rfl, rfl, rfl⟩

theorem witness_PollTimerRefinesTheDraw :
    ∃ t' : TimedState 8,
      runTimed { lastPollInit := 0 } [.setup, .pollCheckT 200, .dump] { base := unset, lastPoll := 7 } =
        .next t' := ⟨_, rfl⟩

/-- The interval of 30 met exactly, and missed by one. -/
theorem witness_TimedPollsKeepTheInterval :
    ∃ b, (TimerConfig.mk (timeW := 8) 0 .atLeast false).cmp = .atLeast ∧
      (running [] 0 true).block = some b ∧ b.initFlag = true ∧
      (running [] 0 true).cfg.pollInterval ≤ ((20#8) - 246#8).toNat ∧
      ((49#8) - 20#8).toNat < (running [] 0 true).cfg.pollInterval :=
  ⟨_, rfl, rfl, rfl, by decide, by decide⟩

end Sys2Proof.Tests
end

section
/-! Proofs about the frame codec (40_codec.md): the frame `encodeFrame` lays out, read field by field, and
what Serialize returns in terms of it; then the obligations on the checksum, on Validate and on Serialize. -/

namespace Sys2Proof

/-! ### The fields of an encoded frame -/

@[simp] theorem encodeFrame_take_three (r : FrameFields) :
    (encodeFrame r).take 3 = [hdr0, hdr1, r.version] := rfl

theorem encodeFrame_sequence (r : FrameFields) :
    be16 ((encodeFrame r).getD 3 0) ((encodeFrame r).getD 4 0) = r.sequence :=
  be16_hi8_lo8 r.sequence

@[simp] theorem encodeFrame_command (r : FrameFields) : (encodeFrame r)[5]? = some r.command := rfl

theorem encodeFrame_lengthField (r : FrameFields) :
    be16 ((encodeFrame r).getD 6 0) ((encodeFrame r).getD 7 0) = BitVec.ofNat 16 r.payload.length :=
  be16_hi8_lo8 _

theorem encodeFrame_drop_eight (r : FrameFields) :
    (encodeFrame r).drop 8 = r.payload ++ [cks (frameBody r)] := rfl

theorem encodeFrame_payload (r : FrameFields) :
    ((encodeFrame r).drop 8).take r.payload.length = r.payload := by
  rw [encodeFrame_drop_eight, List.take_left]

@[simp] theorem encodeFrame_dropLast (r : FrameFields) : (encodeFrame r).dropLast = frameBody r :=
  List.dropLast_concat

@[simp] theorem encodeFrame_getLast? (r : FrameFields) :
    (encodeFrame r).getLast? = some (cks (frameBody r)) :=
  List.getLast?_concat

namespace Machine

/-- Serialize is the encoder on the sequence number selected (R101, R102). -/
theorem serialize_fst (cmd : Byte) (payload : List Byte) (sq : Half) (b : Block) :
    (serialize cmd payload sq b).1 =
      encodeFrame { version := versionByte, sequence := if sq = 0xFFFF then b.seqCtr else sq,
                    command := cmd, payload := payload } := by
  rw [serialize, seqSelect_fst]

/-- What Serialize writes: the counter alone, and only for the sentinel (R102, R103). -/
theorem serialize_snd (cmd : Byte) (payload : List Byte) (sq : Half) (b : Block) :
    (serialize cmd payload sq b).2 =
      { b with seqCtr := if sq = 0xFFFF then nextSeq b.seqCtr else b.seqCtr } :=
  seqSelect_snd sq b

/-- R101's example: the sentinel on a counter at 0. -/
theorem serialize_sentinel_of_seqCtr_zero {b : Block} (hb : b.seqCtr = 0x0000) :
    serialize 0x03 [0x01] 0xFFFF b =
      ([0x55, 0xAA, 0x02, 0x00, 0x00, 0x03, 0x00, 0x01, 0x01, 0x06], { b with seqCtr := 0x0001 }) := by
  apply Prod.ext
  · rw [serialize_fst, if_pos rfl, hb]
    rfl
  · rw [serialize_snd, if_pos rfl, hb]
    rfl

end Machine

/-! ### The checksum and Validate -/

theorem cks_toNat (s : List Byte) : (cks s).toNat = (s.map BitVec.toNat).sum % 256 :=
  BitVec.toNat_ofNat _ _

theorem validate_concat_iff (s : List Byte) (c : Byte) : validate (s ++ [c]) = true ↔ cks s = c := by
  rw [validate_append_trailer, beq_iff_eq]

/-- A single byte is the trailer of the empty sequence, whose checksum is 0 (R107). -/
theorem validate_singleton_iff (c : Byte) : validate [c] = true ↔ c = 0x00 :=
  (validate_concat_iff [] c).trans eq_comm

theorem nine_le_frameLength (payloadLength : Nat) : 9 ≤ frameLength payloadLength := by
  simp only [frameLength, prefixLength]
  omega

/-! ### The obligations -/

open Machine

/-- Settles O6: Serialize is the encoder on the selected sequence number, so each field is read off the
encoded frame. -/
theorem serializeBuildsTheFrame : Obligations.SerializeBuildsTheFrame := by
  refine ⟨fun cmd payload sq b hlen => ?_, fun b hb => serialize_sentinel_of_seqCtr_zero hb⟩
  rw [serialize_fst]
  refine ⟨encodeFrame_take_three _, encodeFrame_sequence _, encodeFrame_command _, ?_,
    encodeFrame_payload ⟨_, _, _, payload⟩, ?_, encodeFrame_length _, serialize_snd cmd payload sq b⟩
  · rw [encodeFrame_lengthField, lengthField_toNat hlen]
  · rw [encodeFrame_getLast?, encodeFrame_dropLast]

/-- Settles O5: the definition's sum, with its corner cases evaluated. -/
theorem checksumIsByteSumModulo256 : Obligations.ChecksumIsByteSumModulo256 :=
  ⟨cks_toNat, by decide, by decide, by decide, by decide⟩

/-- Settles O10: Validate compares the trailer with the checksum of the body; a single byte is the trailer
of the empty body. -/
theorem validateComparesTheTrailer : Obligations.ValidateComparesTheTrailer :=
  ⟨rfl, validate_concat_iff, validate_singleton_iff, nine_le_frameLength, by decide, by decide⟩

end Sys2Proof
end

section
/-! Proofs about the reassembler (41_reassembler.md): RX_BYTE in Searching and in HeaderWait as one equation
each, the waiting of a frame's proper prefix, and the delivery of a frame received from Searching; then the
obligations on the header bytes. -/

namespace Sys2Proof

/-! ### Reading an encoded frame back -/

theorem encodeFrame_length_of_append {r : FrameFields} {p q : List Byte} (hf : p ++ q = encodeFrame r) :
    p.length + q.length = 9 + r.payload.length := by
  rw [← List.length_append, hf, encodeFrame_length]

theorem deserialize_encodeFrame {r : FrameFields} (hr : r.payload.length ≤ 65535) :
    deserialize (encodeFrame r) = some r := by
  have hfit := lengthField_toNat hr
  simp [encodeFrame, frameBody, deserialize, hfit]

/-- The encoding of a frame command is the frame whose command byte selects it (30_encoding.md R70, R77). -/
theorem exists_encodeFrame_of_encode {i : Instr} {f : List Byte} (hw : i.wellFormed = true)
    (he : encode i = .frame f) :
    ∃ r : FrameFields, f = encodeFrame r ∧ demux r = i ∧ r.payload.length ≤ 65535 := by
  cases i with
  | queryProductInfo v q p => cases he; exact ⟨_, rfl, rfl, of_decide_eq_true hw⟩
  | syncNetworkStatus v q p => cases he; exact ⟨_, rfl, rfl, of_decide_eq_true hw⟩
  | resetModuleInbound v q p => cases he; exact ⟨_, rfl, rfl, of_decide_eq_true hw⟩
  | queryNetworkStatus v q p => cases he; exact ⟨_, rfl, rfl, of_decide_eq_true hw⟩
  | unrecognizedCmd v q c p =>
    cases he
    simp only [Instr.wellFormed, isNamedCommand, Bool.and_eq_true, Bool.not_eq_true',
      Bool.or_eq_false_iff, beq_eq_false_iff_ne] at hw
    obtain ⟨hfit, ⟨⟨h1, h2⟩, h3⟩, h20⟩ := hw
    exact ⟨_, rfl, by simp only [demux, if_neg h1, if_neg h2, if_neg h20, if_neg h3],
      of_decide_eq_true hfit⟩
  | setup => cases he
  | rxByte data => cases he
  | pollCheck due => cases he
  | resetRestart => cases he
  | leaveRejoin => cases he
  | dump => cases he

namespace Machine

variable {s : State} {b : Block}

/-! ### One byte received -/

/-- Clearing an empty buffer changes nothing (20_memory.md R53). -/
theorem withBlock_bufClear_of_empty (hb : s.block = some b) (hbuf : b.buf = []) :
    s.withBlock (bufClear b) = s := by
  have hclear : bufClear b = b := by rw [bufClear, ← hbuf]
  rw [hclear, State.withBlock_of_block hb]

/-- R130 as one equation. -/
theorem exec_rxByte_searching (hb : s.block = some b) (hbuf : b.buf = []) (data : Byte) :
    exec (.rxByte data) s =
      .next (if data = 0x55 then s.withBlock { b with buf := [0x55] } else s) := by
  simp only [exec, execRxByte, whenSetUp_some hb, phase_searching (List.length_eq_zero_iff.mpr hbuf),
    rxSearching]
  split
  case isTrue h => rw [bufAppend_ok _ (by simp [hbuf]), hbuf, h]; rfl
  case isFalse => rfl

/-- R131 with R222 as one equation. -/
theorem exec_rxByte_headerWait {first : Byte} (hb : s.block = some b) (hbuf : b.buf = [first])
    (data : Byte) :
    exec (.rxByte data) s =
      .next (if first = 0x55 ∧ data = 0xAA then s.withBlock { b with buf := [first, data] }
             else (s.raiseDiag (.headerMismatch first data)).withBlock (bufClear b)) := by
  have hphase : phase b.buf = .headerWait := phase_headerWait (by rw [hbuf]; rfl)
  simp only [exec, execRxByte, whenSetUp_some hb, hphase, rxHeaderWait]
  rw [bufAppend_ok _ (by simp [hbuf]), hbuf]
  simp only [orFault_ok, List.singleton_append]
  rw [bufRead_ok (by simp), bufRead_ok (by simp)]
  simp only [orFault_ok, List.getD_cons_zero, List.getD_cons_succ]
  split <;> rfl

/-- The length field of a frame is readable from any eight bytes or more of it (R132). -/
theorem lengthField_of_prefix {r : FrameFields} {p q : List Byte} (hr : r.payload.length ≤ 65535)
    (hf : p ++ q = encodeFrame r) (h8 : 8 ≤ p.length) :
    (be16 (p.getD 6 0) (p.getD 7 0)).toNat = r.payload.length := by
  rw [← getD_append_of_lt (t := q) (by omega), ← getD_append_of_lt (t := q) (i := 7) (by omega), hf,
    encodeFrame_lengthField, lengthField_toNat hr]

/-- R130 to R132 on the bytes of a frame: each one but the last joins those before it in the buffer. -/
theorem exec_rxByte_of_frame_prefix {r : FrameFields} {x : Byte} {p q : List Byte}
    (hr : r.payload.length ≤ 65535) (hf : (p ++ [x]) ++ q = encodeFrame r) (hq : q ≠ [])
    (hb : s.block = some b) (hbuf : b.buf = p) :
    exec (.rxByte x) s = .next (s.withBlock { b with buf := p ++ [x] }) := by
  match p with
  | [] =>
    obtain ⟨rfl, -⟩ := List.cons.inj hf
    rw [exec_rxByte_searching hb hbuf, if_pos rfl]
    rfl
  | [y] =>
    obtain ⟨rfl, htail⟩ := List.cons.inj hf
    obtain ⟨rfl, -⟩ := List.cons.inj htail
    rw [exec_rxByte_headerWait hb hbuf, if_pos ⟨rfl, rfl⟩]
    rfl
  | y :: z :: p' =>
    rw [← hbuf] at hf ⊢
    have h2 : 2 ≤ b.buf.length := by simp [hbuf]
    have hlen := encodeFrame_length_of_append hf
    have hqpos := List.length_pos_iff.mpr hq
    simp only [List.length_append, List.length_singleton] at hlen
    refine (execRxByte_accumulating x hb h2 (by simp only [bufCap]; omega)).trans (if_neg ?_)
    rintro ⟨h8, hcomplete⟩
    rw [lengthField_of_prefix hr hf (by simpa using h8)] at hcomplete
    omega

/-- R133 on a whole frame: its command runs on the cleared buffer. -/
theorem completeFrame_encodeFrame {r : FrameFields} (hr : r.payload.length ≤ 65535)
    (hbuf : b.buf = encodeFrame r) :
    completeFrame b s = exec (demux r) (s.withBlock (bufClear b)) := by
  rw [completeFrame, hbuf, if_pos (validate_encodeFrame r), deserialize_encodeFrame hr]
  exact dispatch_eq_exec r _

/-- R132, R133: the last byte of a frame completes it. -/
theorem exec_rxByte_of_frame_end {r : FrameFields} {x : Byte} {p : List Byte}
    (hr : r.payload.length ≤ 65535) (hf : p ++ [x] = encodeFrame r) (hb : s.block = some b)
    (hbuf : b.buf = p) :
    exec (.rxByte x) s = exec (demux r) (s.withBlock (bufClear b)) := by
  subst hbuf
  have hlen : b.buf.length + 1 = 9 + r.payload.length := encodeFrame_length_of_append hf
  refine (execRxByte_accumulating x hb (by omega) (by simp only [bufCap]; omega)).trans ?_
  rw [hf, encodeFrame_lengthField, lengthField_toNat hr, if_pos (by omega), completeFrame_encodeFrame hr rfl]
  rfl

/-! ### Byte streams -/

/-- R130 over a stream: noise in Searching changes nothing. -/
theorem receive_noise {noise : List Byte} (hb : s.block = some b) (hbuf : b.buf = [])
    (hn : 0x55 ∉ noise) : receive noise s = .next s := by
  induction noise with
  | nil => rfl
  | cons x noise ih =>
    obtain ⟨hx, hn⟩ := List.ne_and_not_mem_of_not_mem_cons hn
    have hkept : exec (.rxByte x) s = .next s := by
      rw [exec_rxByte_searching hb hbuf, if_neg hx.symm]
    exact (runEvents_cons_next hkept).trans (ih hn)

/-- R132, R253: a proper prefix of a frame, received from Searching, waits in the buffer. -/
theorem receive_frame_prefix {r : FrameFields} (hr : r.payload.length ≤ 65535) (hb : s.block = some b)
    (hbuf : b.buf = []) (p : List Byte) :
    ∀ q, p ++ q = encodeFrame r → q ≠ [] → receive p s = .next (s.withBlock { b with buf := p }) := by
  induction p using List.reverseRecOn with
  | nil =>
    intro q _ _
    exact congrArg _ (withBlock_bufClear_of_empty hb hbuf).symm
  | append_singleton p x ih =>
    intro q hf hq
    have hwait := ih (x :: q) (by rw [← hf, List.append_assoc, List.singleton_append]) (by simp)
    rw [receive_append_next hwait, receive_singleton,
      exec_rxByte_of_frame_prefix hr hf hq (State.withBlock_block _ _) rfl, State.withBlock_withBlock]

/-- R139: a frame received from Searching runs its command. -/
theorem receive_encodeFrame {r : FrameFields} (hr : r.payload.length ≤ 65535) (hb : s.block = some b)
    (hbuf : b.buf = []) : receive (encodeFrame r) s = exec (demux r) s := by
  have hwait := receive_frame_prefix hr hb hbuf (frameBody r) [cks (frameBody r)] rfl (by simp)
  have hcleared := withBlock_bufClear_of_empty hb hbuf
  rw [encodeFrame, receive_append_next hwait, receive_singleton,
    exec_rxByte_of_frame_end hr rfl (State.withBlock_block _ _) rfl, State.withBlock_withBlock]
  exact congrArg (exec (demux r)) hcleared

/-- R131 with R134: a failed header check leaves nothing but its warning. -/
theorem receive_header_mismatch {second : Byte} (hb : s.block = some b) (hbuf : b.buf = [])
    (hsecond : second ≠ 0xAA) :
    receive [0x55, second] s = .next (s.raiseDiag (.headerMismatch 0x55 second)) := by
  have hfirst : exec (.rxByte 0x55) s = .next (s.withBlock { b with buf := [0x55] }) := by
    rw [exec_rxByte_searching hb hbuf, if_pos rfl]
  calc receive [0x55, second] s
    _ = receive [second] (s.withBlock { b with buf := [0x55] }) := runEvents_cons_next hfirst
    _ = .next ((s.raiseDiag (.headerMismatch 0x55 second)).withBlock (bufClear b)) := by
      rw [receive_singleton, exec_rxByte_headerWait (State.withBlock_block _ _) rfl,
        if_neg (fun h => hsecond h.2)]
      rfl
    _ = .next (s.raiseDiag (.headerMismatch 0x55 second)) := by
      rw [withBlock_bufClear_of_empty (s := s.raiseDiag _) hb hbuf]

end Machine

/-! ### The obligations -/

open Machine

/-- Settles O25: the failed check leaves an empty buffer, so the noise is discarded in Searching and the frame
is delivered from there. -/
theorem headerMismatchDropsBothBytes : Obligations.HeaderMismatchDropsBothBytes := by
  intro s b second noise i f hb hbuf hsecond hnoise hw he
  obtain ⟨r, rfl, rfl, hr⟩ := exists_encodeFrame_of_encode hw he
  have hb' : (s.raiseDiag (.headerMismatch 0x55 second)).block = some b := hb
  rw [List.append_assoc, receive_append_next (receive_header_mismatch hb hbuf hsecond),
    receive_append_next (receive_noise hb' hbuf hnoise), receive_encodeFrame hr hb' hbuf]
  rfl

/-- Settles O16: R130's equation. -/
theorem searchingKeepsOnlyTheHeaderByte : Obligations.SearchingKeepsOnlyTheHeaderByte :=
  fun _ _ data hb hbuf => exec_rxByte_searching hb hbuf data

/-- Settles O17: R131's equation; the diagnostic is a warning by R221. -/
theorem headerWaitChecksBothBytes : Obligations.HeaderWaitChecksBothBytes :=
  fun _ _ _ data hb hbuf => ⟨exec_rxByte_headerWait hb hbuf data, rfl⟩

end Sys2Proof
end

section
/-! Proofs about the dispatcher and the initialization flag (42_dispatcher.md; 10_state.md R25): what each
effect of an instruction says of the flag and of the frame it sends, the handshake invariant of a run, and
which of a frame's fields Dispatch reads; then the obligations. -/

namespace Sys2Proof

namespace Machine

variable {cfg : Config} {s s' : State} {b b' : Block} {i : Instr} {o : List Out} {f : List Byte}

/-! ### The flag and the frames sent, effect by effect -/

theorem Effect.length_output_le_one (h : Effect cfg b i b' o) : o.length ≤ 1 := by
  cases h <;> simp

/-- R25, D15: the flag falls by SETUP alone. -/
theorem Effect.setup_of_flag_falls (h : Effect cfg b i b' o) (hb : b.initFlag = true)
    (hb' : b'.initFlag = false) : i = .setup := by
  cases h with
  | reset h => exact h
  | answer => cases hb'
  | quiet | status | diag | poll | mode => exact absurd (hb.symm.trans hb') (by decide)

/-- R161, D9: the flag rises only with a product-info response. -/
theorem Effect.response_of_flag_rises (h : Effect cfg b i b' o) (hb : b.initFlag = false)
    (hb' : b'.initFlag = true) : ∃ f, o = [.tx f] ∧ f[5]? = some 0x01 := by
  cases h with
  | reset => cases hb'
  | answer m q => exact ⟨_, rfl, encodeFrame_command _⟩
  | quiet | status | diag | poll | mode => exact absurd (hb.symm.trans hb') (by decide)

/-- R191: a frame of command `0x20` is sent only with the flag set. -/
theorem Effect.flag_of_poll_sent (h : Effect cfg b i b' o) (hf : .tx f ∈ o) (hpoll : f[5]? = some 0x20) :
    b.initFlag = true := by
  cases h with
  | poll h => exact h
  | reset | quiet => cases hf
  | status | diag => simp at hf
  | answer | mode =>
    cases List.mem_singleton.mp hf
    rw [frameLiteral, encodeFrame_command] at hpoll
    exact absurd hpoll (by simp)

/-- R197: in `Unset` only SETUP has a meaning. -/
theorem exec_eq_refused_of_unset (hs : s.block = none) (hi : i ≠ .setup) :
    exec i s = .refused .notSetUp := by
  cases i with
  | setup => exact absurd rfl hi
  | _ => exact whenSetUp_none hs _

/-! ### The handshake invariant -/

/-- What every event of a run keeps, the run keeps. -/
theorem runEvents_keeps {P : State → Prop} (hP : ∀ s s' i, P s → exec i s = .next s' → P s')
    {events : List Instr} (hs : P s) (h : runEvents events s = .next s') : P s' := by
  induction events generalizing s with
  | nil =>
    cases h
    exact hs
  | cons i is ih =>
    cases hi : exec i s with
    | next s1 =>
      rw [runEvents_cons_next hi] at h
      exact ih (hP s s1 i hs hi) h
    | fault r => simp only [runEvents, hi] at h; cases h
    | refused r => simp only [runEvents, hi] at h; cases h

/-- A product-info response (command `0x01`, D9) is among the events. -/
def Answered (o : List Out) : Prop := ∃ g ∈ txPort o, g[5]? = some 0x01

/-- Every poll frame (command `0x20`) among the events comes after a product-info response. -/
def PollsFollowAnswer (o : List Out) : Prop :=
  ∀ before f, before ++ [.tx f] <+: o → f[5]? = some 0x20 → Answered before

/-- Among the events emitted since the record was `start`, polls follow a response, and there is a response if
the flag is set. -/
def HandshakeFirst (start : List Out) (s : State) : Prop :=
  ∃ o, s.out = start ++ o ∧ (s.initFlagPort = some true → Answered o) ∧ PollsFollowAnswer o

theorem answered_append_iff {o o' : List Out} : Answered (o ++ o') ↔ Answered o ∨ Answered o' := by
  simp only [Answered, txPort, List.filterMap_append, List.mem_append, or_and_right, exists_or]

theorem answered_response (hf : f[5]? = some 0x01) : Answered [.tx f] :=
  ⟨f, List.mem_singleton.mpr rfl, hf⟩

theorem pollsFollowAnswer_nil : PollsFollowAnswer [] := by
  intro before f hpre
  exact absurd (List.prefix_nil.mp hpre) (by simp)

/-- One more event keeps the order when it is no poll or a response came before. -/
theorem PollsFollowAnswer.append {o o' : List Out} (h : PollsFollowAnswer o) (hlen : o'.length ≤ 1)
    (hpoll : ∀ f, .tx f ∈ o' → f[5]? = some 0x20 → Answered o) : PollsFollowAnswer (o ++ o') := by
  match o' with
  | [] => rwa [List.append_nil]
  | [x] =>
    intro before f hpre hf
    rcases List.prefix_concat_iff.mp hpre with heq | hpre
    · obtain ⟨rfl, hx⟩ := List.append_inj' heq rfl
      exact hpoll f (by rw [← hx]; exact List.mem_singleton.mpr rfl) hf
    · exact h before f hpre hf

/-- R30: the level port shows the flag of the block that is set up. -/
theorem initFlagPort_of_block (hb : s.block = some b) : s.initFlagPort = some b.initFlag := by
  rw [State.initFlagPort, hb]
  rfl

theorem HandshakeFirst.of_flag_clear (hs : ∀ b ∈ s.block, b.initFlag = false) :
    HandshakeFirst s.out s := by
  refine ⟨[], (List.append_nil _).symm, fun hflag => ?_, pollsFollowAnswer_nil⟩
  obtain ⟨b, hb, htrue⟩ := Option.map_eq_some_iff.mp hflag
  exact absurd ((hs b hb).symm.trans htrue) (by decide)

/-- From `Unset` only SETUP goes on, and it clears the flag; on a block that is set up the flag was set
before any poll, and the effect that sets it is a response. -/
theorem HandshakeFirst.kept_by_exec {start : List Out} (hs : HandshakeFirst start s)
    (h : exec i s = .next s') : HandshakeFirst start s' := by
  obtain ⟨o, hout, hflag, hpolls⟩ := hs
  cases hb : s.block with
  | none =>
    by_cases hi : i = .setup
    · subst hi
      cases h
      exact ⟨o, hout, fun hset => absurd (Option.some.inj hset) Bool.false_ne_true, hpolls⟩
    · rw [exec_eq_refused_of_unset hb hi] at h
      cases h
  | some b =>
    rw [initFlagPort_of_block hb, Option.some.injEq] at hflag
    obtain ⟨b', o', rfl, heff⟩ := exec_cases hb h
    refine ⟨o ++ o', by rw [← List.append_assoc, ← hout], fun hset => answered_append_iff.mpr ?_,
      hpolls.append heff.length_output_le_one fun f hf h20 => hflag (heff.flag_of_poll_sent hf h20)⟩
    cases hold : b.initFlag with
    | true => exact .inl (hflag hold)
    | false =>
      obtain ⟨f, rfl, hf⟩ := heff.response_of_flag_rises hold (Option.some.inj hset)
      exact .inr (answered_response hf)

/-! ### Which fields Dispatch reads -/

/-- R139 with R160: a frame received from Searching is dispatched. -/
theorem receive_encodeFrame_eq_dispatch {r : FrameFields} (hr : r.payload.length ≤ 65535)
    (hb : s.block = some b) (hbuf : b.buf = []) : receive (encodeFrame r) s = dispatch r s :=
  (receive_encodeFrame hr hb hbuf).trans (dispatch_eq_exec r s).symm

/-- R168: Dispatch reads no version byte. -/
theorem dispatch_version (r : FrameFields) (v : Byte) (s : State) :
    dispatch { r with version := v } s = dispatch r s := rfl

/-- R169: Dispatch reads the sequence number for Query Product Info alone. -/
theorem dispatch_sequence {r : FrameFields} (hr : r.command ≠ 0x01) (q : Half) (s : State) :
    dispatch { r with sequence := q } s = dispatch r s := by
  rw [dispatch, dispatch, if_neg hr, if_neg hr]
  rfl

/-- R163, R165: the first payload byte is published as its label. -/
theorem networkStatus_cons (hb : s.block = some b) (command code : Byte) (rest : List Byte) :
    networkStatus command (code :: rest) s = .next (s.emit (.status (labelOf code))) :=
  whenSetUp_some hb _

end Machine

/-! ### The obligations -/

open Machine

/-- Settles O57: the handshake invariant holds where the run begins and every event keeps it, so the poll in
the record of the run stands after a response. -/
theorem pollsOnlyAfterTheHandshake : Obligations.PollsOnlyAfterTheHandshake := by
  intro events s s' before after f hclear hrun hout hf
  obtain ⟨o, ho, -, hpolls⟩ :=
    runEvents_keeps (fun _ _ _ hs h => hs.kept_by_exec h) (HandshakeFirst.of_flag_clear hclear) hrun
  refine hpolls before f ⟨after, ?_⟩ hf
  rw [ho, List.append_assoc, List.append_assoc, List.append_cancel_left_eq, ← List.append_assoc] at hout
  exact hout.symm

/-- Settles O29: a delivered frame is dispatched, and Dispatch reads no version, and a sequence number only
for Query Product Info. -/
theorem versionAndSequenceAreNotConsulted : Obligations.VersionAndSequenceAreNotConsulted := by
  intro s b r v q hb hbuf hr
  refine ⟨?_, fun hcommand => ?_, ?_⟩
  · rw [receive_encodeFrame_eq_dispatch (r := { r with version := v }) hr hb hbuf,
      receive_encodeFrame_eq_dispatch hr hb hbuf, dispatch_version]
  · rw [receive_encodeFrame_eq_dispatch (r := { r with sequence := q }) hr hb hbuf,
      receive_encodeFrame_eq_dispatch hr hb hbuf, dispatch_sequence hcommand]
  · have hframe : [0x55, 0xAA, 0x03, 0x00, 0x00, 0x02, 0x00, 0x01, 0x00, 0x05] =
        encodeFrame { version := 0x03, sequence := 0x0000, command := 0x02, payload := [0x00] } := by decide
    rw [hframe, receive_encodeFrame_eq_dispatch (by decide) hb hbuf]
    exact networkStatus_cons hb 0x02 0x00 []

/-- Settles O54: each effect that changes the flag is SETUP's or the response's. -/
theorem flagWriters : Obligations.FlagWriters := by
  intro s s' i b b' hb h hb' hne
  obtain ⟨_, o, rfl, heff⟩ := exec_cases hb h
  cases hb'
  cases hnew : b'.initFlag with
  | false => exact .inl ⟨rfl, heff.setup_of_flag_falls (by simpa [hnew] using hne) hnew⟩
  | true =>
    obtain ⟨f, rfl, hf⟩ := heff.response_of_flag_rises (by simpa [hnew] using hne.symm) hnew
    exact .inr ⟨rfl, f, rfl, hf⟩

end Sys2Proof
end

section
/-! Proofs about the host operations (43_host_ops.md): POLL_CHECK, the reset commands and DUMP leave the
buffer alone (R199), so each commutes with the first bytes of a frame; then the obligations. -/

namespace Sys2Proof

namespace Machine

/-! ### Host operations and the buffer -/

/-- A frame sent with the sentinel takes the counter's value and advances it (R102). -/
theorem sendFrame_sentinel (cmd : Byte) (payload : List Byte) (b : Block) (s : State) :
    sendFrame cmd payload sentinel b s =
      { s with
        block := some { b with seqCtr := nextSeq b.seqCtr },
        out := s.out ++ [.tx (frameLiteral b.seqCtr cmd payload)] } := by
  rw [sendFrame_eq, if_pos rfl, if_pos rfl, frameLiteral]

/-- R199: a poll check, a reset command or a dump neither reads nor writes the buffer; over any buffer `m` it
sets the same counter and emits the same events. -/
theorem exec_hostOp_over_any_buffer {h : Instr}
    (hh : h = .resetRestart ∨ h = .leaveRejoin ∨ h = .dump ∨ ∃ due, h = .pollCheck due)
    (s : State) (b : Block) :
    ∃ (c : Half) (o : List Out), ∀ m : Memory,
      exec h (s.withBlock { b with buf := m }) =
        .next { s with block := some { b with buf := m, seqCtr := c }, out := s.out ++ o } := by
  have sent (m : Memory) (cmd : Byte) (payload : List Byte) :
      sendFrame cmd payload sentinel { b with buf := m } (s.withBlock { b with buf := m }) =
        { s with
          block := some { b with buf := m, seqCtr := nextSeq b.seqCtr },
          out := s.out ++ [.tx (frameLiteral b.seqCtr cmd payload)] } :=
    sendFrame_sentinel cmd payload _ _
  rcases hh with rfl | rfl | rfl | ⟨due, rfl⟩
  case inl => exact ⟨_, _, fun m => congrArg Host.Outcome.next (sent m 0x03 [modeResetRestart])⟩
  case inr.inl => exact ⟨_, _, fun m => congrArg Host.Outcome.next (sent m 0x03 [modeLeaveRejoin])⟩
  case inr.inr.inl => exact ⟨b.seqCtr, [.diag (.dumpReport s.cfg.pollInterval)], fun m => rfl⟩
  case inr.inr.inr =>
    cases ha : pollArmed b due with
    | true =>
      exact ⟨_, _, fun m => (if_pos ha).trans (congrArg Host.Outcome.next (sent m 0x20 []))⟩
    | false =>
      refine ⟨b.seqCtr, [], fun m => (if_neg (ne_true_of_eq_false ha)).trans ?_⟩
      rw [List.append_nil]
      rfl

/-- R199 with R132: from an empty buffer, such an operation and a proper prefix of a frame end in the same
state in either order: the prefix waits, over the operation's counter and events. -/
theorem hostOp_commutes_with_frame_prefix {h : Instr} {r : FrameFields} {s : State} {b : Block}
    {p q : List Byte}
    (hh : h = .resetRestart ∨ h = .leaveRejoin ∨ h = .dump ∨ ∃ due, h = .pollCheck due)
    (hb : s.block = some b) (hbuf : b.buf = []) (hr : r.payload.length ≤ 65535)
    (hf : p ++ q = encodeFrame r) (hq : q ≠ []) :
    ∃ s', runEvents (rxEvents p ++ [h]) s = .next s' ∧ runEvents (h :: rxEvents p) s = .next s' := by
  obtain ⟨c, o, hop⟩ := exec_hostOp_over_any_buffer hh s b
  refine ⟨{ s with block := some { b with buf := p, seqCtr := c }, out := s.out ++ o }, ?_, ?_⟩
  · have hwait : runEvents (rxEvents p) s = .next (s.withBlock { b with buf := p }) :=
      receive_frame_prefix hr hb hbuf p q hf hq
    rw [runEvents_append_next hwait, runEvents_cons_next (hop p)]
    rfl
  · have hfirst := hop []
    rw [← bufClear, withBlock_bufClear_of_empty hb hbuf] at hfirst
    rw [runEvents_cons_next hfirst]
    exact receive_frame_prefix (b := { b with buf := [], seqCtr := c }) hr rfl rfl p q hf hq

end Machine

/-! ### The obligations -/

open Machine

/-- Settles O28: the operation commutes with the bytes before it, and the bytes after it are received from the
same state. -/
theorem hostOperationMidFrameIsHarmless : Obligations.HostOperationMidFrameIsHarmless := by
  intro s b h i p q hb hbuf hh hw he hq
  obtain ⟨r, hf, -, hr⟩ := exists_encodeFrame_of_encode hw he
  obtain ⟨s', hafter, hbefore⟩ := hostOp_commutes_with_frame_prefix hh hb hbuf hr hf hq
  calc runEvents (rxEvents p ++ h :: rxEvents q) s
    _ = runEvents ((rxEvents p ++ [h]) ++ rxEvents q) s := by rw [List.append_assoc, List.singleton_append]
    _ = runEvents (rxEvents q) s' := runEvents_append_next hafter
    _ = runEvents ((h :: rxEvents p) ++ rxEvents q) s := (runEvents_append_next hbefore).symm
    _ = runEvents (h :: rxEvents (p ++ q)) s := by rw [rxEvents, rxEvents, rxEvents, List.map_append]; rfl

/-- Settles O35: SETUP writes the block after SETUP over whatever was there; the installed SEQ_INIT is a
literal. -/
theorem setupResetsTheBlock : Obligations.SetupResetsTheBlock :=
  ⟨fun _ => rfl, rfl⟩

/-- Settles O39: with a block the guard passes, and DUMP raises its one diagnostic. -/
theorem dumpReportsThePollInterval : Obligations.DumpReportsThePollInterval :=
  fun _ _ hb => ⟨whenSetUp_some hb _, rfl⟩

/-- Settles O40: every arm but SETUP's begins with the `Unset` guard. -/
theorem eventsBeforeSetupAreRefused : Obligations.EventsBeforeSetupAreRefused :=
  fun _ _ hs hi => exec_eq_refused_of_unset hs hi

end Sys2Proof
end

section
/-! Proofs about the exceptions (60_exceptions.md): the byte that completes a frame, a completed frame whose
trailer is not its checksum (R223), and a status frame with no status byte (R224); then the obligations. -/

namespace Sys2Proof

namespace Machine

variable {s : State} {b : Block}

/-- R132: the byte after the `8 + L` bytes before a frame's trailer completes the frame, whatever the byte. -/
theorem exec_rxByte_completes (data : Byte) (hb : s.block = some b) (h8 : 8 ≤ b.buf.length)
    (hlen : b.buf.length = 8 + (be16 (b.buf.getD 6 0) (b.buf.getD 7 0)).toNat) :
    exec (.rxByte data) s = completeFrame { b with buf := b.buf ++ [data] } s := by
  have hfield := (be16 (b.buf.getD 6 0) (b.buf.getD 7 0)).isLt
  have hroom : b.buf.length < bufCap := by simp only [bufCap]; omega
  refine (execRxByte_accumulating data hb (by omega) hroom).trans (if_pos ?_)
  rw [getD_append_of_lt (by omega), getD_append_of_lt (by omega)]
  omega

/-- R133 with R223: a trailer that is not the checksum of the bytes before it is reported beside that checksum,
on the cleared buffer. -/
theorem completeFrame_of_cks_ne {body : List Byte} {received : Byte} (hbuf : b.buf = body ++ [received])
    (hne : cks body ≠ received) :
    completeFrame b s =
      .next ((s.withBlock (bufClear b)).raiseDiag (.checksumMismatch (cks body) received)) := by
  have hinvalid : ¬ validate b.buf = true := by rwa [hbuf, validate_concat_iff]
  rw [completeFrame, if_neg hinvalid, hbuf, bufRead_ok (by simp), List.dropLast_concat]
  simp

/-- R224: with no status byte, EMPTY_STATUS is raised with the command code, and nothing else happens. -/
theorem networkStatus_nil (hb : s.block = some b) (command : Byte) :
    networkStatus command [] s = .next (s.raiseDiag (.emptyStatus command)) :=
  whenSetUp_some hb _

end Machine

/-! ### The obligations -/

open Machine

/-- Settles O20: the byte completes the frame, whose trailer is wrong; the diagnostic is a warning by R221. -/
theorem completionDropsABadFrame : Obligations.CompletionDropsABadFrame := by
  intro s b data hb h8 hlen hne
  refine ⟨?_, rfl⟩
  rw [exec_rxByte_completes data hb h8 (Nat.succ.inj hlen), completeFrame_of_cks_ne rfl hne]
  rfl

/-- Settles O32: both commands are `networkStatus` with their own code; the diagnostics are warnings by R221. -/
theorem emptyStatusRaisesAWarning : Obligations.EmptyStatusRaisesAWarning :=
  fun _ _ _ _ hb => ⟨networkStatus_nil hb 0x02, networkStatus_nil hb 0x20, rfl, rfl⟩

end Sys2Proof
end

section
/-! Proofs about the two decoders (30_encoding.md; 40_codec.md R107, R111): Deserialize by position, the
frame decoder and the host-op table as inverses of the encoder, and a host-op word read by its fields; then
the obligations. -/

namespace Sys2Proof

/-! ### Deserialize -/

/-- A sequence of eight bytes or more has the eight bytes before a frame's payload (R70). -/
theorem exists_prefix_bytes {f : List Byte} (h : 8 ≤ f.length) :
    ∃ h0 h1 v qh ql c lh ll rest, f = h0 :: h1 :: v :: qh :: ql :: c :: lh :: ll :: rest := by
  match f with
  | h0 :: h1 :: v :: qh :: ql :: c :: lh :: ll :: rest => exact ⟨h0, h1, v, qh, ql, c, lh, ll, rest, rfl⟩
  | [] | [_] | [_, _] | [_, _, _] | [_, _, _, _] | [_, _, _, _, _] | [_, _, _, _, _, _]
  | [_, _, _, _, _, _, _] => simp at h

/-- A sequence Deserialize has a meaning for has a byte after the eight before the payload (R111). -/
theorem nine_le_length_of_deserialize {f : List Byte} {r : FrameFields} (h : deserialize f = some r) :
    9 ≤ f.length := by
  unfold deserialize at h
  split at h
  · split at h
    case isTrue hf => simp [hf.2.2]
    case isFalse => cases h
  · cases h

/-- R111 as an equivalence: the precondition and every field by position. -/
theorem deserialize_eq_some_iff (f : List Byte) (r : FrameFields) :
    deserialize f = some r ↔
      f[0]? = some 0x55 ∧ f[1]? = some 0xAA ∧
      f.length = 9 + (be16 (f.getD 6 0) (f.getD 7 0)).toNat ∧
      r.version = f.getD 2 0 ∧ r.sequence = be16 (f.getD 3 0) (f.getD 4 0) ∧ r.command = f.getD 5 0 ∧
      r.payload = (f.drop 8).take (be16 (f.getD 6 0) (f.getD 7 0)).toNat := by
  by_cases h8 : 8 ≤ f.length
  · obtain ⟨h0, h1, v, qh, ql, c, lh, ll, rest, rfl⟩ := exists_prefix_bytes h8
    obtain ⟨rv, rq, rc, rp⟩ := r
    have hlen : rest.length + 1 + 1 + 1 + 1 + 1 + 1 + 1 + 1 = 9 + (be16 lh ll).toNat ↔
        rest.length = (be16 lh ll).toNat + 1 := by omega
    simp [deserialize, hlen, and_assoc, eq_comm (a := rv), eq_comm (a := rq), eq_comm (a := rc),
      eq_comm (a := rp)]
  · constructor
    · intro h
      have := nine_le_length_of_deserialize h
      omega
    · rintro ⟨-, -, hlen, -⟩
      omega

/-- Deserialize has a meaning exactly for a frame's bytes before the checksum and one byte more. -/
theorem deserialize_eq_some_iff_frameBody (f : List Byte) (r : FrameFields) :
    deserialize f = some r ↔ r.payload.length ≤ 65535 ∧ ∃ c, f = frameBody r ++ [c] := by
  constructor
  · intro h
    obtain ⟨h0, h1, v, qh, ql, c, lh, ll, rest, rfl⟩ :=
      exists_prefix_bytes (Nat.le_of_succ_le (nine_le_length_of_deserialize h))
    simp only [deserialize] at h
    split at h
    case isFalse => cases h
    case isTrue hf =>
      obtain ⟨rfl, rfl, hrest⟩ := hf
      cases h
      have hfield := (be16 lh ll).isLt
      have htake : (rest.take (be16 lh ll).toNat).length = (be16 lh ll).toNat := by
        rw [List.length_take]; omega
      obtain ⟨last, hlast⟩ := List.length_eq_one_iff.mp
        (show (rest.drop (be16 lh ll).toNat).length = 1 by rw [List.length_drop]; omega)
      refine ⟨by rw [htake]; omega, last, ?_⟩
      simp [frameBody, htake, ← hlast]
  · rintro ⟨hr, c, rfl⟩
    simp [frameBody, deserialize, lengthField_toNat hr]

/-- The bytes before a frame's checksum are those that begin `55 AA` and are `8 + L` long (R70, R75). -/
theorem exists_frameBody {f : List Byte} (h0 : f[0]? = some 0x55) (h1 : f[1]? = some 0xAA)
    (h8 : 8 ≤ f.length) (hlen : f.length = 8 + (be16 (f.getD 6 0) (f.getD 7 0)).toNat) :
    ∃ r : FrameFields, r.payload.length ≤ 65535 ∧ f = frameBody r := by
  obtain ⟨b0, b1, v, qh, ql, c, lh, ll, rest, rfl⟩ := exists_prefix_bytes h8
  cases h0
  cases h1
  have hfield := (be16 lh ll).isLt
  have hrest : rest.length = (be16 lh ll).toNat := by
    simp only [List.length_cons, List.getD_cons_succ, List.getD_cons_zero] at hlen
    omega
  exact ⟨⟨v, be16 qh ql, c, rest⟩, by dsimp only; omega, by simp [frameBody, hrest]⟩

/-- A valid sequence that Deserialize reads is the encoding of what it reads. -/
theorem encodeFrame_of_deserialize {f : List Byte} {r : FrameFields} (h : deserialize f = some r)
    (hv : validate f = true) : r.payload.length ≤ 65535 ∧ encodeFrame r = f := by
  obtain ⟨hr, c, rfl⟩ := (deserialize_eq_some_iff_frameBody f r).mp h
  rw [validate_concat_iff] at hv
  exact ⟨hr, by rw [encodeFrame, hv]⟩

/-! ### The frame decoder against the encoder -/

theorem decodeFrame_encodeFrame {r : FrameFields} (hr : r.payload.length ≤ 65535) :
    decodeFrame (encodeFrame r) = .ok (demux r) :=
  decodeFrame_eq_ok.mpr ⟨r, deserialize_encodeFrame hr, validate_encodeFrame r, rfl⟩

theorem exists_encodeFrame_of_decodeFrame {f : List Byte} {i : Instr} (h : decodeFrame f = .ok i) :
    ∃ r : FrameFields, f = encodeFrame r ∧ demux r = i ∧ r.payload.length ≤ 65535 := by
  obtain ⟨r, hd, hv, hi⟩ := decodeFrame_eq_ok.mp h
  obtain ⟨hr, hf⟩ := encodeFrame_of_deserialize hd hv
  exact ⟨r, hf.symm, hi, hr⟩

/-- The demultiplexer forgets no field (R77). -/
theorem encode_demux (r : FrameFields) : encode (demux r) = .frame (encodeFrame r) := by
  obtain ⟨v, q, c, p⟩ := r
  unfold demux
  split
  case isTrue h => cases h; rfl
  split
  case isTrue h => cases h; rfl
  split
  case isTrue h => cases h; rfl
  split
  case isTrue h => cases h; rfl
  case isFalse => rfl

theorem demux_wellFormed {r : FrameFields} (hr : r.payload.length ≤ 65535) :
    (demux r).wellFormed = true := by
  have hfit : payloadFits r.payload = true := decide_eq_true hr
  unfold demux
  split
  case isTrue => exact hfit
  split
  case isTrue => exact hfit
  split
  case isTrue => exact hfit
  split
  case isTrue => exact hfit
  case isFalse h1 h2 h20 h3 => 
    simp only [Instr.wellFormed, isNamedCommand, hfit, beq_false_of_ne h1, beq_false_of_ne h2,
      beq_false_of_ne h3, beq_false_of_ne h20, Bool.or_self, Bool.not_false, Bool.and_self]

/-! ### The host-op table against the encoder -/

/-- A word that decodes belongs to a row and means what the row's event reads from it (R83). -/
theorem exists_row_of_decodeHostWord {w : Half} {i : Instr} (h : decodeHostWord w = .ok i) :
    ∃ row ∈ hostOpRows, w &&& row.maskBits = row.matchBits ∧ row.event w = i := by
  unfold decodeHostWord at h
  split at h
  case h_1 row hrow =>
    cases h
    have htakes : row.takes w = true := by simpa using List.find?_some hrow
    exact ⟨row, List.mem_of_find?_eq_some hrow, beq_iff_eq.mp htakes, rfl⟩
  case h_2 => cases h

/-- A word is its row's match bits and the bits the mask leaves open. -/
theorem eq_matchBits_or_operand {w m k n : Half} (hn : m ||| n = BitVec.allOnes 16) (h : w &&& m = k) :
    w = k ||| (w &&& n) := by
  rw [← h, ← BitVec.and_or_distrib_left, hn, BitVec.and_allOnes]

theorem rxWord_lo8 {w : Half} (h : w &&& 0xFF00 = 0x2000) : rxWord (lo8 w) = w := by
  have hdata : (lo8 w).setWidth 16 = w &&& 0x00FF := by
    apply BitVec.eq_of_toNat_eq
    rw [BitVec.toNat_setWidth, lo8_toNat, BitVec.toNat_and]
    have hmod : w.toNat &&& 0x00FF = w.toNat % 256 := Nat.and_two_pow_sub_one_eq_mod w.toNat 8
    simp [hmod]
    omega
  rw [rxWord, hdata, ← eq_matchBits_or_operand (by decide) h]

theorem pollWord_getLsbD {w : Half} (h : w &&& 0xFEFF = 0x3000) : pollWord (w.getLsbD 8) = w := by
  have hdue : w &&& 0x0100 = if w.getLsbD 8 then 0x0100 else 0x0000 := BitVec.and_twoPow w 8
  rw [eq_matchBits_or_operand (n := 0x0100) (by decide) h, hdue]
  cases w.getLsbD 8 <;> decide

/-- Each row's event is a host operation whose word is the word it was read from. -/
theorem encode_event {row : HostOpRow} (hrow : row ∈ hostOpRows) {w : Half}
    (h : w &&& row.maskBits = row.matchBits) :
    (row.event w).wellFormed = true ∧ encode (row.event w) = .hostWord w := by
  have whole {k : Half} (h : w &&& 0xFFFF = k) : Encoding.hostWord k = .hostWord w := by
    rw [← h, show (0xFFFF : Half) = BitVec.allOnes 16 from rfl, BitVec.and_allOnes]
  simp only [hostOpRows, List.mem_cons, List.not_mem_nil, or_false] at hrow
  rcases hrow with rfl | rfl | rfl | rfl | rfl | rfl
  · exact ⟨rfl, whole h⟩
  · exact ⟨rfl, congrArg _ (rxWord_lo8 h)⟩
  · exact ⟨rfl, congrArg _ (pollWord_getLsbD h)⟩
  · exact ⟨rfl, whole h⟩
  · exact ⟨rfl, whole h⟩
  · exact ⟨rfl, whole h⟩

theorem decodeHostWord_rxWord (data : Byte) : decodeHostWord (rxWord data) = .ok (.rxByte data) := by
  revert data
  decide

/-- The word of a host operation decodes to it (R83). -/
theorem decodeHostWord_of_encode {i : Instr} {w : Half} (h : encode i = .hostWord w) :
    decodeHostWord w = .ok i := by
  cases i with
  | queryProductInfo | syncNetworkStatus | resetModuleInbound | queryNetworkStatus | unrecognizedCmd =>
    cases h
  | rxByte data => cases h; exact decodeHostWord_rxWord data
  | pollCheck due => cases h; cases due <;> decide
  | setup | resetRestart | leaveRejoin | dump => cases h; decide

/-! ### A host-op word by its fields -/

/-- R82: a word is its fields op, must-be-zero, `d` and `data`. -/
theorem hostWord_ext {w w' : Half} (hop : w.extractLsb' 12 4 = w'.extractLsb' 12 4)
    (hzero : w.extractLsb' 9 3 = w'.extractLsb' 9 3) (hd : w.getLsbD 8 = w'.getLsbD 8)
    (hdata : w.extractLsb' 0 8 = w'.extractLsb' 0 8) : w = w' := by
  have hd' : w.extractLsb' 8 1 = w'.extractLsb' 8 1 := by
    apply BitVec.eq_of_getLsbD_eq
    intro i hi
    obtain rfl : i = 0 := by omega
    simpa using hd
  have h := w.isLt
  have h' := w'.isLt
  simp only [← BitVec.toNat_inj, BitVec.extractLsb'_toNat, Nat.shiftRight_eq_div_pow] at hop hzero hd' hdata
  apply BitVec.eq_of_toNat_eq
  omega

/-- R82's reading of a word: field by field, and refused where a field no row reads is not zero. -/
def decodeByFields (w : Half) : Except DecodeError Instr :=
  if w.extractLsb' 9 3 ≠ 0 then .error (.reservedHostOp w)
  else if w.extractLsb' 12 4 = 0x2 ∧ w.getLsbD 8 = false then .ok (.rxByte (w.extractLsb' 0 8))
  else if w.extractLsb' 0 8 ≠ 0 then .error (.reservedHostOp w)
  else if w.extractLsb' 12 4 = 0x3 then .ok (.pollCheck (w.getLsbD 8))
  else if w.getLsbD 8 = true then .error (.reservedHostOp w)
  else if w.extractLsb' 12 4 = 0x1 then .ok .setup
  else if w.extractLsb' 12 4 = 0x4 then .ok .resetRestart
  else if w.extractLsb' 12 4 = 0x5 then .ok .leaveRejoin
  else if w.extractLsb' 12 4 = 0x6 then .ok .dump
  else .error (.reservedHostOp w)

theorem rxWord_fields (data : Byte) :
    (rxWord data).extractLsb' 12 4 = 0x2 ∧ (rxWord data).extractLsb' 9 3 = 0 ∧
      (rxWord data).getLsbD 8 = false ∧ (rxWord data).extractLsb' 0 8 = data := by
  revert data
  decide

theorem pollWord_fields (due : Bool) :
    (pollWord due).extractLsb' 12 4 = 0x3 ∧ (pollWord due).extractLsb' 9 3 = 0 ∧
      (pollWord due).getLsbD 8 = due ∧ (pollWord due).extractLsb' 0 8 = 0 := by
  cases due <;> decide

theorem decodeByFields_of_encode {i : Instr} {w : Half} (h : encode i = .hostWord w) :
    decodeByFields w = .ok i := by
  cases i with
  | queryProductInfo | syncNetworkStatus | resetModuleInbound | queryNetworkStatus | unrecognizedCmd =>
    cases h
  | rxByte data =>
    cases h
    obtain ⟨hop, hzero, hd, hdata⟩ := rxWord_fields data
    simp only [decodeByFields, hop, hzero, hd, hdata]
    rfl
  | pollCheck due => cases h; cases due <;> decide
  | setup | resetRestart | leaveRejoin | dump => cases h; decide

theorem encode_of_decodeByFields {i : Instr} {w : Half} (h : decodeByFields w = .ok i) :
    encode i = .hostWord w := by
  simp only [decodeByFields, ne_eq, ite_not] at h
  split at h
  case isFalse => cases h
  case isTrue hzero =>
  split at h
  case isTrue hrx =>
    cases h
    obtain ⟨hop', hzero', hd', hdata'⟩ := rxWord_fields (w.extractLsb' 0 8)
    exact congrArg _ (hostWord_ext (hop'.trans hrx.1.symm) (hzero'.trans hzero.symm)
      (hd'.trans hrx.2.symm) hdata')
  case isFalse =>
  split at h
  case isFalse => cases h
  case isTrue hdata =>
  split at h
  case isTrue hop =>
    cases h
    obtain ⟨hop', hzero', hd', hdata'⟩ := pollWord_fields (w.getLsbD 8)
    exact congrArg _ (hostWord_ext (hop'.trans hop.symm) (hzero'.trans hzero.symm) hd'
      (hdata'.trans hdata.symm))
  case isFalse =>
  split at h
  case isTrue => cases h
  case isFalse hd =>
  have plain (k : Half) (hop : w.extractLsb' 12 4 = k.extractLsb' 12 4) (hz : k.extractLsb' 9 3 = 0)
      (hk : k.getLsbD 8 = false) (hk' : k.extractLsb' 0 8 = 0) : Encoding.hostWord k = .hostWord w :=
    congrArg _ (hostWord_ext hop.symm (hz.trans hzero.symm)
      (hk.trans (Bool.eq_false_iff.mpr hd).symm) (hk'.trans hdata.symm))
  split at h
  case isTrue hop => cases h; exact plain 0x1000 hop rfl rfl rfl
  split at h
  case isTrue hop => cases h; exact plain 0x4000 hop rfl rfl rfl
  split at h
  case isTrue hop => cases h; exact plain 0x5000 hop rfl rfl rfl
  split at h
  case isTrue hop => cases h; exact plain 0x6000 hop rfl rfl rfl
  case isFalse => cases h

theorem decodeHostWord_eq_error {w : Half} {e : DecodeError} (h : decodeHostWord w = .error e) :
    e = .reservedHostOp w := by
  unfold decodeHostWord at h
  split at h
  · cases h
  · cases h; rfl

theorem decodeByFields_eq_error {w : Half} {e : DecodeError} (h : decodeByFields w = .error e) :
    e = .reservedHostOp w := by
  unfold decodeByFields at h
  split_ifs at h <;> cases h <;> rfl

/-! ### The obligations -/

/-- Settles O2: the frame decoder reads an encoded frame back to the fields it was made of, which select the
command; a host operation's word is its row's. -/
theorem decodeInvertsEncode : Obligations.DecodeInvertsEncode := by
  intro i hw
  cases he : encode i with
  | hostWord w => exact decodeHostWord_of_encode he
  | frame f =>
    obtain ⟨r, rfl, rfl, hr⟩ := exists_encodeFrame_of_encode hw he
    exact decodeFrame_encodeFrame hr

/-- Settles O3: an accepted frame is the encoding of the fields read from it; an accepted word is its row's
match bits with the operand its event reads. -/
theorem encodeInvertsDecode : Obligations.EncodeInvertsDecode := by
  intro e i h
  cases e with
  | hostWord w =>
    obtain ⟨row, hrow, hmask, rfl⟩ := exists_row_of_decodeHostWord h
    exact encode_event hrow hmask
  | frame f =>
    obtain ⟨r, rfl, rfl, hr⟩ := exists_encodeFrame_of_decodeFrame h
    exact ⟨demux_wellFormed hr, encode_demux r⟩

/-- A word decodes by its fields as by the mask table: both accept the words the encoder makes, and refuse
every other in the same way. -/
theorem decodeHostWord_eq_decodeByFields (w : Half) : decodeHostWord w = decodeByFields w := by
  cases htable : decodeHostWord w with
  | ok i => exact (decodeByFields_of_encode (encodeInvertsDecode (.hostWord w) i htable).2).symm
  | error e =>
    cases hfields : decodeByFields w with
    | ok i =>
      have htable' := decodeHostWord_of_encode (encode_of_decodeByFields hfields)
      cases htable.symm.trans htable'
    | error e' => rw [decodeHostWord_eq_error htable, decodeByFields_eq_error hfields]

/-- Settles O1: `decodeByFields` is the statement's reading. -/
theorem hostWordsDecodeByFields : Obligations.HostWordsDecodeByFields :=
  decodeHostWord_eq_decodeByFields

/-- Settles O4: each word and frame evaluated. -/
theorem specWordsDecode : Obligations.SpecWordsDecode := by
  unfold Obligations.SpecWordsDecode
  decide

/-- Settles O13: the definition's match, by position. -/
theorem deserializeReadsByPosition : Obligations.DeserializeReadsByPosition :=
  deserialize_eq_some_iff

end Sys2Proof
end

section
/-! Proofs about Serialize's counter and the reach of the checksum (40_codec.md R104, R105, R109, R110;
95_test_vectors.md VA-6); then the obligations. -/

namespace Sys2Proof

/-! ### What the checksum detects -/

/-- The checksum adds, so it does not see the order of the bytes. -/
theorem cks_perm {s t : List Byte} (h : s.Perm t) : cks s = cks t := by
  rw [cks, cks, (h.map BitVec.toNat).sum_eq]

/-- R110: with the other bytes fixed, only one byte has the right checksum in its place. -/
theorem eq_of_validate {p q : List Byte} {x y : Byte} (hx : validate (p ++ x :: q) = true)
    (hy : validate (p ++ y :: q) = true) : x = y := by
  cases q using List.reverseRecOn with
  | nil =>
    rw [validate_concat_iff] at hx hy
    exact hx.symm.trans hy
  | append_singleton q c =>
    rw [← List.cons_append, ← List.append_assoc, validate_concat_iff, cks_append, cks_cons] at hx hy
    have hsum : x + cks q = y + cks q := add_left_cancel (hx.trans hy.symm)
    exact add_right_cancel hsum

namespace Machine

/-! ### The counter -/

theorem iterate_nextSeq_le {c : Half} (hc : c ≤ 0xFFF0) (k : Nat) : nextSeq^[k] c ≤ 0xFFF0 := by
  cases k with
  | zero => exact hc
  | succ k =>
    rw [Function.iterate_succ_apply']
    exact nextSeq_le _

theorem iterate_nextSeq_toNat {c : Half} (hc : c ≤ 0xFFF0) (k : Nat) :
    (nextSeq^[k] c).toNat = (c.toNat + k) % 65521 := by
  induction k with
  | zero =>
    have hc' : c.toNat ≤ 65520 := hc
    exact (Nat.mod_eq_of_lt (show c.toNat < 65521 by omega)).symm
  | succ k ih =>
    rw [Function.iterate_succ_apply', nextSeq_toNat (iterate_nextSeq_le hc k), ih]
    omega

/-- R104, D5: from `0xFFF0` on the counter wraps. -/
theorem nextSeq_of_wrap_le {c : Half} (hc : 0xFFF0 ≤ c) : nextSeq c = 0x0000 := if_pos hc

/-- R105: sentinel calls write the counter alone, by one `next` each. -/
theorem iterate_serialize_sentinel (cmd : Byte) (payload : List Byte) (b : Block) (k : Nat) :
    (fun b' => (serialize cmd payload 0xFFFF b').2)^[k] b = { b with seqCtr := nextSeq^[k] b.seqCtr } := by
  induction k with
  | zero => rfl
  | succ k ih =>
    rw [Function.iterate_succ_apply', ih, serialize_snd, if_pos rfl, Function.iterate_succ_apply']

end Machine

/-! ### The obligations -/

open Machine

/-- Settles O7: Serialize is the encoder on the selected sequence number, and an encoded frame reads back. -/
theorem serializedFramesReadBack : Obligations.SerializedFramesReadBack := by
  intro cmd payload sq b hlen
  rw [serialize_fst]
  exact ⟨validate_encodeFrame _, deserialize_encodeFrame hlen⟩

/-- Settles O8, by induction on the number of applications. -/
theorem counterCountsModulo65521 : Obligations.CounterCountsModulo65521 :=
  ⟨fun _ k hc => iterate_nextSeq_toNat hc k, fun _ hc => nextSeq_of_wrap_le hc⟩

/-- Settles O9: the calls before leave `next^k` of the counter, which the next frame carries. -/
theorem sentinelCallsAssignSuccessiveValues : Obligations.SentinelCallsAssignSuccessiveValues := by
  refine ⟨fun cmd cmd' payload payload' b k => ?_, fun cmd payload sq b hsq => ?_⟩
  · have hafter := iterate_serialize_sentinel cmd payload b k
    refine ⟨hafter, ?_, fun hb => iterate_nextSeq_le hb k⟩
    rw [hafter, serialize_fst, if_pos rfl]
    exact encodeFrame_sequence _
  · rw [serialize_snd, if_neg hsq]

/-- Settles O11: were the changed sequence valid too, both bytes would be the same. -/
theorem singleByteChangeIsDetected : Obligations.SingleByteChangeIsDetected := by
  intro f i x hv hi hne
  have hsplit : f = f.take i ++ f[i] :: f.drop (i + 1) := by
    rw [List.getElem_cons_drop hi, List.take_append_drop]
  rw [hsplit] at hv
  rw [List.set_eq_take_append_cons_drop, if_pos hi]
  exact Bool.eq_false_iff.mpr fun hx => hne (eq_of_validate hv hx)

/-- Settles O12: Validate reads the body through its checksum alone. -/
theorem reorderingIsNotDetected : Obligations.ReorderingIsNotDetected := by
  intro s t c h
  rw [validate_append_trailer, validate_append_trailer, cks_perm h]

end Sys2Proof
end

section
/-! Proofs about the single commands and host operations (42_dispatcher.md; 43_host_ops.md): each as one
equation on a block that is set up; then the obligations, with those on the labels and the diagnostics. -/

namespace Sys2Proof

namespace Machine

variable {s : State} {b : Block}

/-- R164: the label's port value is the status code up to 3, and 4 above. -/
theorem labelOf_portValue_toNat (code : Byte) :
    (labelOf code).portValue.toNat = if code.toNat ≤ 3 then code.toNat else 4 := by
  unfold labelOf
  split
  case isTrue h => rw [h]; rfl
  split
  case isTrue h => rw [h]; rfl
  split
  case isTrue h => rw [h]; rfl
  split
  case isTrue h => rw [h]; rfl
  case isFalse h0 h1 h2 h3 =>
    rw [if_neg (by simp only [← BitVec.toNat_inj, BitVec.reduceToNat] at h0 h1 h2 h3; omega)]
    rfl

/-- R161, R162 as one equation. -/
theorem exec_queryProductInfo (hb : s.block = some b) (v : Byte) (q : Half) (p : List Byte) :
    exec (.queryProductInfo v q p) s =
      .next { s with
        block := some { b with
          initFlag := true, seqCtr := if q = 0xFFFF then nextSeq b.seqCtr else b.seqCtr },
        out := s.out ++ [.tx (frameLiteral (if q = 0xFFFF then b.seqCtr else q) 0x01 s.cfg.productInfo)] } :=
  (whenSetUp_some hb _).trans (congrArg _ (sendFrame_eq _ _ _ _ _))

/-- R163, R165: a status frame emits one event and changes nothing else. -/
theorem exists_networkStatus_eq_emit (hb : s.block = some b) (command : Byte) (payload : List Byte) :
    ∃ o, networkStatus command payload s = .next (s.emit o) := by
  cases payload with
  | nil => exact ⟨_, networkStatus_nil hb command⟩
  | cons code rest => exact ⟨_, networkStatus_cons hb command code rest⟩

/-- R167: the command code is logged. -/
theorem unrecognized_of_block (hb : s.block = some b) (command : Byte) :
    unrecognized command s = .next (s.raiseDiag (.unrecognizedCmd command)) :=
  whenSetUp_some hb _

/-- R160: a frame command emits one event and keeps the buffer, and every command but Query Product Info
keeps the whole block. -/
theorem exec_frameCommand {i : Instr} (hb : s.block = some b) (hi : i.isFrameCommand = true) :
    ∃ (b' : Block) (o : Out),
      exec i s = .next { s with block := some b', out := s.out ++ [o] } ∧ b'.buf = b.buf ∧
      ((∀ v q p, i ≠ .queryProductInfo v q p) → b' = b) := by
  have emitted (h : ∃ o, exec i s = .next (s.emit o)) :
      ∃ (b' : Block) (o : Out),
        exec i s = .next { s with block := some b', out := s.out ++ [o] } ∧ b'.buf = b.buf ∧
        ((∀ v q p, i ≠ .queryProductInfo v q p) → b' = b) := by
    obtain ⟨o, ho⟩ := h
    exact ⟨b, o, by rw [ho, emit_eq_withBlock hb], rfl, fun _ => rfl⟩
  cases i with
  | queryProductInfo v q p =>
    exact ⟨_, _, exec_queryProductInfo hb v q p, rfl, fun hne => absurd rfl (hne v q p)⟩
  | syncNetworkStatus v q p => exact emitted (exists_networkStatus_eq_emit hb 0x02 p)
  | queryNetworkStatus v q p => exact emitted (exists_networkStatus_eq_emit hb 0x20 p)
  | resetModuleInbound v q p => exact emitted ⟨_, unrecognized_of_block hb 0x03⟩
  | unrecognizedCmd v q c p => exact emitted ⟨_, unrecognized_of_block hb c⟩
  | setup | rxByte | pollCheck | resetRestart | leaveRejoin | dump => cases hi

/-- R191 as one equation. -/
theorem exec_pollCheck (hb : s.block = some b) (due : Bool) :
    exec (.pollCheck due) s = .next (if pollArmed b due then sendPoll b s else s) := by
  refine (whenSetUp_some hb _).trans ?_
  split <;> rfl

/-- R191, D11: the poll takes the counter's value and advances it. -/
theorem sendPoll_eq (b : Block) (s : State) :
    sendPoll b s =
      { s with block := some { b with seqCtr := nextSeq b.seqCtr },
               out := s.out ++ [.tx (frameLiteral b.seqCtr 0x20 [])] } :=
  sendFrame_sentinel 0x20 [] b s

/-- R193, R194 as one equation. -/
theorem sendReset_eq (hb : s.block = some b) (mode : Byte) :
    sendReset mode s =
      .next { s with block := some { b with seqCtr := nextSeq b.seqCtr },
                     out := s.out ++ [.tx (frameLiteral b.seqCtr 0x03 [mode])] } :=
  (whenSetUp_some hb _).trans (congrArg _ (sendFrame_sentinel 0x03 [mode] b s))

end Machine

/-! ### The obligations -/

open Machine

/-- Settles O14: the map case by case; the label of `01` is the one whose text is fixed. -/
theorem labelMapIsTotal : Obligations.LabelMapIsTotal :=
  ⟨labelOf_portValue_toNat, fun _ => rfl⟩

/-- Settles O15: each code and severity is the definition's. -/
theorem diagnosticCodes : Obligations.DiagnosticCodes :=
  fun _ _ _ => ⟨⟨rfl, rfl⟩, ⟨rfl, rfl⟩, ⟨rfl, rfl⟩, ⟨rfl, rfl⟩, ⟨rfl, rfl⟩⟩

/-- Settles O30: R161's equation. -/
theorem queryProductInfoAnswers : Obligations.QueryProductInfoAnswers :=
  fun _ _ v q p hb => exec_queryProductInfo hb v q p

/-- Settles O31: both commands are `networkStatus` with their own code. -/
theorem statusFramesPublishTheirLabel : Obligations.StatusFramesPublishTheirLabel :=
  fun _ _ _ _ code rest hb => ⟨networkStatus_cons hb 0x02 code rest, networkStatus_cons hb 0x20 code rest⟩

/-- Settles O33: both commands are `unrecognized`, the inbound reset with `03`. -/
theorem otherCommandsAreLoggedAndDropped : Obligations.OtherCommandsAreLoggedAndDropped :=
  fun _ _ _ command _ _ hb => ⟨unrecognized_of_block hb 0x03, unrecognized_of_block hb command⟩

/-- Settles O34: command by command. -/
theorem eachFrameGivesExactlyOneOutput : Obligations.EachFrameGivesExactlyOneOutput :=
  fun _ _ _ hb hi => exec_frameCommand hb hi

/-- Settles O36: the poll is armed, and a poll is sent. -/
theorem pollCheckSendsAPoll : Obligations.PollCheckSendsAPoll := by
  intro s b hb hflag
  rw [exec_pollCheck hb, if_pos (by rw [pollArmed, hflag]; rfl), sendPoll_eq]

/-- Settles O37: the poll is not armed. -/
theorem pollCheckIsSkipped : Obligations.PollCheckIsSkipped := by
  intro s b due hb hskip
  have harmed : pollArmed b due = false := Bool.and_eq_false_iff.mpr hskip
  rw [exec_pollCheck hb, harmed]
  rfl

/-- Settles O38: both operations are `sendReset` with their own mode byte. -/
theorem resetCommandsSendTheirMode : Obligations.ResetCommandsSendTheirMode :=
  fun _ _ hb => ⟨sendReset_eq hb modeResetRestart, sendReset_eq hb modeLeaveRejoin⟩

end Sys2Proof
end

section
/-! Proofs about the reassembler over byte streams (41_reassembler.md R132 to R139): the byte that completes
a frame, whole frames, frames in sequence and a corrupt span; then the obligations. -/

namespace Sys2Proof

namespace Machine

variable {s : State} {b : Block}

/-- R132: a byte that leaves the buffer short of `8 + L + 1` bytes is appended. -/
theorem exec_rxByte_appends (data : Byte) (hb : s.block = some b) (h2 : 2 ≤ b.buf.length)
    (hroom : b.buf.length < bufCap)
    (hshort : b.buf.length + 1 < 8 ∨
      b.buf.length + 1 ≠
        8 + (be16 ((b.buf ++ [data]).getD 6 0) ((b.buf ++ [data]).getD 7 0)).toNat + 1) :
    exec (.rxByte data) s = .next (s.withBlock { b with buf := b.buf ++ [data] }) :=
  (execRxByte_accumulating data hb h2 hroom).trans (if_neg fun h => hshort.elim h.1.not_gt fun hne => hne h.2)

/-- R50: there is no room for a byte past `BUF_CAP`. -/
theorem exec_rxByte_of_full (data : Byte) (hb : s.block = some b) (hfull : bufCap ≤ b.buf.length) :
    exec (.rxByte data) s = .fault .bufferFull := by
  have hphase : phase b.buf = .accumulating := phase_accumulating (by simp only [bufCap] at hfull; omega)
  have happend : bufAppend data b = .error .bufferFull := if_neg hfull.not_gt
  simp only [exec, execRxByte, whenSetUp_some hb, hphase, rxAccumulating, happend, orFault_error]

/-- R111: a completed buffer with a right checksum that Deserialize has no meaning for is refused. -/
theorem completeFrame_of_not_frame (hv : validate b.buf = true) (hd : deserialize b.buf = none) :
    completeFrame b s = .refused .notACompleteFrame := by
  rw [completeFrame, if_pos hv, hd]

/-- R133: the byte that completes a decodable frame runs its command on the cleared buffer. -/
theorem exec_rxByte_of_decodeFrame {data : Byte} {i : Instr} (hb : s.block = some b)
    (h : decodeFrame (b.buf ++ [data]) = .ok i) :
    exec (.rxByte data) s = exec i (s.withBlock (bufClear b)) := by
  obtain ⟨r, hf, rfl, hr⟩ := exists_encodeFrame_of_decodeFrame h
  exact exec_rxByte_of_frame_end hr hf hb rfl

/-- R139: a frame command's bytes, received from Searching, run it. -/
theorem receive_of_encode {i : Instr} {f : List Byte} (hb : s.block = some b) (hbuf : b.buf = [])
    (hw : i.wellFormed = true) (he : encode i = .frame f) : receive f s = exec i s := by
  obtain ⟨r, rfl, rfl, hr⟩ := exists_encodeFrame_of_encode hw he
  exact receive_encodeFrame hr hb hbuf

theorem exists_frame_of_isFrameCommand {i : Instr} (h : i.isFrameCommand = true) :
    ∃ f, encode i = .frame f := by
  cases i with
  | queryProductInfo | syncNetworkStatus | resetModuleInbound | queryNetworkStatus | unrecognizedCmd =>
    exact ⟨_, rfl⟩
  | setup | rxByte | pollCheck | resetRestart | leaveRejoin | dump => cases h

/-- R133, R135: a header-checked span with a wrong trailer waits to its end and is dropped whole. -/
theorem receive_corrupt_frame {r : FrameFields} {data : Byte} (hb : s.block = some b) (hbuf : b.buf = [])
    (hr : r.payload.length ≤ 65535) (hne : cks (frameBody r) ≠ data) :
    receive (frameBody r ++ [data]) s =
      .next (s.raiseDiag (.checksumMismatch (cks (frameBody r)) data)) := by
  have hwait := receive_frame_prefix hr hb hbuf (frameBody r) [cks (frameBody r)] rfl (by simp)
  have hfield : (be16 ((frameBody r).getD 6 0) ((frameBody r).getD 7 0)).toNat = r.payload.length :=
    lengthField_of_prefix (q := [cks (frameBody r)]) hr rfl (by simp)
  have hcleared := withBlock_bufClear_of_empty hb hbuf
  rw [receive_append_next hwait, receive_singleton,
    exec_rxByte_completes data (State.withBlock_block _ _) (by simp) (by rw [hfield]; simp),
    completeFrame_of_cks_ne rfl hne, State.withBlock_withBlock]
  exact congrArg (fun t => Host.Outcome.next (State.raiseDiag t _)) hcleared

end Machine

/-! ### The obligations -/

open Machine

/-- Settles O22: a frame is the encoding of its fields, and those select the command. -/
theorem everyFrameFromSearchingIsDelivered : Obligations.EveryFrameFromSearchingIsDelivered :=
  fun _ _ _ _ hb hbuf hw he => receive_of_encode hb hbuf hw he

/-- Settles O23, by induction on the list: each frame is delivered and leaves the buffer empty for the
next. -/
theorem framesInSequenceRunInSequence : Obligations.FramesInSequenceRunInSequence := by
  intro s b is hb hbuf his
  induction is generalizing s b with
  | nil => rfl
  | cons i is ih =>
    obtain ⟨hi, his⟩ := List.forall_mem_cons.mp his
    obtain ⟨hw, hframe⟩ := hi
    obtain ⟨f, he⟩ := exists_frame_of_isFrameCommand hframe
    obtain ⟨b', o, hexec, hbuf', -⟩ := exec_frameCommand hb hframe
    have hdelivered := (receive_of_encode hb hbuf hw he).trans hexec
    simp only [List.flatMap_cons, he]
    rw [receive_append_next hdelivered, runEvents_cons_next hexec]
    exact ih _ b' rfl (hbuf'.trans hbuf) his

/-- Settles O18: R132's equation, the branch that completes nothing. -/
theorem accumulatingAppends : Obligations.AccumulatingAppends :=
  fun _ _ data hb h2 hroom hshort => exec_rxByte_appends data hb h2 hroom hshort

/-- Settles O19: what decodes as a frame is an encoded frame, and its last byte completes it. -/
theorem completionRunsTheDecodedCommand : Obligations.CompletionRunsTheDecodedCommand :=
  fun _ _ _ _ hb h => exec_rxByte_of_decodeFrame hb h

/-- Settles O24: noise in Searching. -/
theorem noiseIsDiscardedSilently : Obligations.NoiseIsDiscardedSilently :=
  fun _ _ _ hb hbuf hn => receive_noise hb hbuf hn

/-- Settles O26: such a span is a frame's bytes before its checksum. -/
theorem corruptSpanIsDroppedWhole : Obligations.CorruptSpanIsDroppedWhole := by
  intro s b f data hb hbuf h0 h1 h8 hlen hne
  obtain ⟨r, hr, rfl⟩ := exists_frameBody h0 h1 h8 hlen
  exact receive_corrupt_frame hb hbuf hr hne

/-- Settles O27: the bytes before a cut inside an encoded frame wait. -/
theorem partialFrameWaits : Obligations.PartialFrameWaits := by
  intro s b i p q hb hbuf hw he hq
  obtain ⟨r, hf, -, hr⟩ := exists_encodeFrame_of_encode hw he
  exact receive_frame_prefix hr hb hbuf p q hf hq

/-- Settles O41: the request is delivered and answered under its own number, so the poll that follows has the
flag set and the counter as it was. -/
theorem handshakeThenPollInOnePass : Obligations.HandshakeThenPollInOnePass := by
  intro s b r hb hbuf hcommand hseq hr
  have hanswer : receive (encodeFrame r) s =
      .next { s with
        block := some { b with initFlag := true },
        out := s.out ++ [.tx (frameLiteral r.sequence 0x01 s.cfg.productInfo)] } := by
    rw [receive_encodeFrame hr hb hbuf, demux, if_pos hcommand, exec_queryProductInfo hb, if_neg hseq,
      if_neg hseq]
  rw [drivePass, runEvents_append_next hanswer,
    runEvents_cons_next (pollCheckSendsAPoll _ { b with initFlag := true } rfl rfl), List.append_assoc]
  rfl

/-- Settles O21: a full buffer breaks I4's bound; a completed buffer under I1 and I2 is one Deserialize
reads. -/
theorem unreachableBuffersStop : Obligations.UnreachableBuffersStop := by
  refine ⟨fun s b data hb hfull => ⟨exec_rxByte_of_full data hb hfull, fun hinv => ?_⟩,
    fun s b data hb h8 hlen hcks hd => ⟨?_, fun hinv => ?_⟩⟩
  · obtain ⟨-, -, -, hcap, -⟩ := hinv b hb
    simp only [bufCap] at hcap
    omega
  · rw [exec_rxByte_completes data hb h8 (Nat.succ.inj hlen)]
    exact completeFrame_of_not_frame ((validate_concat_iff _ _).mpr hcks) hd
  · obtain ⟨h0, h1, -⟩ := hinv b hb
    obtain ⟨r, hr, hf⟩ := exists_frameBody (h0 (by omega)) (h1 (by omega)) h8 (Nat.succ.inj hlen)
    have hsome := (deserialize_eq_some_iff_frameBody (b.buf ++ [data]) r).mpr ⟨hr, data, by rw [hf]⟩
    cases hd.symm.trans hsome

end Sys2Proof
end

section
/-! Proofs about the step (00_scope.md R10) and what one step can do: its inversion, what any instruction can
do from any state, and that no meaning reads the presented words; then the obligations. -/

namespace Sys2Proof

namespace Machine

variable {s s' : State}

/-! ### The step -/

theorem fetchEvent_of_input {w : Half} {ws : List Half} (h : s.input = w :: ws) :
    fetchEvent s = some (w, { s with input := ws }) := by
  rw [fetchEvent, h]

/-- R10, R29: the oldest word is taken and its event runs on what is left. -/
theorem step_of_decode {w : Half} {ws : List Half} {i : Instr} (h : s.input = w :: ws)
    (hi : decodeHostWord w = .ok i) : step s = exec i { s with input := ws } := by
  simp only [step, fetchEvent_of_input h, hi]

/-- R198: a word of no row is refused. -/
theorem step_of_decode_error {w : Half} {ws : List Half} {e : DecodeError} (h : s.input = w :: ws)
    (he : decodeHostWord w = .error e) : step s = .refused (.reservedHostOp w) := by
  simp only [step, fetchEvent_of_input h, he]

/-- R234: with no word presented nothing changes. -/
theorem step_of_no_input (h : s.input = []) : step s = .next s := by
  simp only [step, fetchEvent, h]

/-- What a step with a next state did, said once. -/
theorem step_cases (h : step s = .next s') :
    (s.input = [] ∧ s' = s) ∨
      ∃ w ws i, s.input = w :: ws ∧ exec i { s with input := ws } = .next s' := by
  cases hin : s.input with
  | nil =>
    rw [step_of_no_input hin] at h
    cases h
    exact .inl ⟨rfl, rfl⟩
  | cons w ws =>
    cases hi : decodeHostWord w with
    | ok i => exact .inr ⟨w, ws, i, rfl, (step_of_decode hin hi).symm.trans h⟩
    | error e =>
      rw [step_of_decode_error hin hi] at h
      cases h

/-- What an instruction can do from any state: SETUP from `Unset`, or an effect on a block that is set up. -/
theorem exec_cases_of_any_state {i : Instr} (h : exec i s = .next s') :
    ∃ b' o, s' = { s with block := some b', out := s.out ++ o } ∧
      ((s.block = none ∧ b' = blockAfterSetup s.cfg ∧ o = []) ∨
        ∃ b, s.block = some b ∧ Effect s.cfg b i b' o) := by
  cases hb : s.block with
  | none =>
    by_cases hi : i = .setup
    · subst hi
      cases h
      exact ⟨_, [], by rw [List.append_nil]; rfl, .inl ⟨rfl, rfl, rfl⟩⟩
    · rw [exec_eq_refused_of_unset hb hi] at h
      cases h
  | some b =>
    obtain ⟨b', o, hs', heff⟩ := exec_cases hb h
    exact ⟨b', o, hs', .inr ⟨b, rfl, heff⟩⟩

/-- R226, R138: an instruction emits at most one event. -/
theorem exec_emits_at_most_one {i : Instr} (h : exec i s = .next s') :
    ∃ o : List Out, s'.out = s.out ++ o ∧ o.length ≤ 1 := by
  obtain ⟨b', o, rfl, ⟨-, -, rfl⟩ | ⟨b, -, heff⟩⟩ := exec_cases_of_any_state h
  · exact ⟨[], rfl, Nat.zero_le 1⟩
  · exact ⟨o, rfl, heff.length_output_le_one⟩

/-- R27, R61: no instruction writes the configuration or the presented words. -/
theorem exec_keeps_cfg_and_input {i : Instr} (h : exec i s = .next s') :
    s'.cfg = s.cfg ∧ s'.input = s.input := by
  obtain ⟨b', o, rfl, -⟩ := exec_cases_of_any_state h
  exact ⟨rfl, rfl⟩

/-- R103: the counter changes by SETUP, or by one `next` with a frame that carries its old value. -/
theorem Effect.counter_writers {cfg : Config} {b b' : Block} {i : Instr} {o : List Out}
    (h : Effect cfg b i b' o) (hne : b'.seqCtr ≠ b.seqCtr) :
    i = .setup ∨ (b'.seqCtr = nextSeq b.seqCtr ∧
      ∃ f, o = [.tx f] ∧ be16 (f.getD 3 0) (f.getD 4 0) = b.seqCtr) := by
  cases h with
  | reset h => exact .inl h
  | quiet | status | diag => exact absurd rfl hne
  | answer m q =>
    by_cases hq : q = 0xFFFF
    · exact .inr ⟨if_pos hq, _, rfl, (encodeFrame_sequence _).trans (if_pos hq)⟩
    · exact absurd (if_neg hq) hne
  | poll | mode => exact .inr ⟨rfl, _, rfl, encodeFrame_sequence _⟩

/-! ### The presented words are not read -/

/-- The answer with `ws` as the presented words of its next state. -/
def withInput (ws : List Half) : Answer → Answer
  | .next s => .next { s with input := ws }
  | .fault f => .fault f
  | .refused r => .refused r

theorem whenSetUp_withInput {ws : List Half} {run run' : Block → Answer}
    (h : ∀ b, run' b = withInput ws (run b)) :
    whenSetUp { s with input := ws } run' = withInput ws (whenSetUp s run) := by
  cases hb : s.block with
  | none => simp only [whenSetUp, hb, withInput]
  | some b => simp only [whenSetUp, hb, h]

theorem orFault_withInput {α : Type} {ws : List Half} {run run' : α → Answer}
    (h : ∀ a, run' a = withInput ws (run a)) (r : Except Fault α) :
    orFault r run' = withInput ws (orFault r run) := by
  cases r with
  | error f => rfl
  | ok a => exact h a

/-- A choice that does not read the presented words. -/
theorem ite_withInput {ws : List Half} {p : Prop} [Decidable p] {x y x' y' : Answer}
    (hx : x' = withInput ws x) (hy : y' = withInput ws y) :
    (if p then x' else y') = withInput ws (if p then x else y) := by
  split
  · exact hx
  · exact hy

theorem networkStatus_withInput (command : Byte) (payload : List Byte) (s : State) (ws : List Half) :
    networkStatus command payload { s with input := ws } =
      withInput ws (networkStatus command payload s) := by
  refine whenSetUp_withInput fun b => ?_
  cases statusOperand payload <;> rfl

theorem exec_frameCommand_withInput {i : Instr} (hi : i.isFrameCommand = true) (s : State)
    (ws : List Half) : exec i { s with input := ws } = withInput ws (exec i s) := by
  cases i with
  | queryProductInfo => exact whenSetUp_withInput fun b => rfl
  | syncNetworkStatus v q p => exact networkStatus_withInput 0x02 p s ws
  | queryNetworkStatus v q p => exact networkStatus_withInput 0x20 p s ws
  | resetModuleInbound | unrecognizedCmd => exact whenSetUp_withInput fun b => rfl
  | setup | rxByte | pollCheck | resetRestart | leaveRejoin | dump => cases hi

theorem rxSearching_withInput (data : Byte) (b : Block) (s : State) (ws : List Half) :
    rxSearching data b { s with input := ws } = withInput ws (rxSearching data b s) := by
  refine ite_withInput ?_ rfl
  refine orFault_withInput (fun b' => ?_) _
  rfl

theorem rxHeaderWait_withInput (data : Byte) (b : Block) (s : State) (ws : List Half) :
    rxHeaderWait data b { s with input := ws } = withInput ws (rxHeaderWait data b s) := by
  refine orFault_withInput (fun b' => ?_) _
  refine orFault_withInput (fun x => ?_) _
  refine orFault_withInput (fun y => ?_) _
  exact ite_withInput rfl rfl

theorem completeFrame_withInput (b : Block) (s : State) (ws : List Half) :
    completeFrame b { s with input := ws } = withInput ws (completeFrame b s) := by
  refine ite_withInput ?_ ?_
  · cases deserialize b.buf with
    | none => rfl
    | some r =>
      simp only [dispatch_eq_exec]
      exact exec_frameCommand_withInput (demux_isFrameCommand r) (s.withBlock (bufClear b)) ws
  · refine orFault_withInput (fun received => ?_) _
    rfl

theorem rxAccumulating_withInput (data : Byte) (b : Block) (s : State) (ws : List Half) :
    rxAccumulating data b { s with input := ws } = withInput ws (rxAccumulating data b s) := by
  refine orFault_withInput (fun b' => ?_) _
  refine ite_withInput ?_ rfl
  refine orFault_withInput (fun lenHi => ?_) _
  refine orFault_withInput (fun lenLo => ?_) _
  exact ite_withInput (completeFrame_withInput b' s ws) rfl

theorem execRxByte_withInput (data : Byte) (s : State) (ws : List Half) :
    execRxByte data { s with input := ws } = withInput ws (execRxByte data s) := by
  refine whenSetUp_withInput fun b => ?_
  cases phase b.buf with
  | searching => exact rxSearching_withInput data b s ws
  | headerWait => exact rxHeaderWait_withInput data b s ws
  | accumulating => exact rxAccumulating_withInput data b s ws

/-- No meaning reads the presented words (R61): an instruction does the same whatever they are. -/
theorem exec_withInput (i : Instr) (s : State) (ws : List Half) :
    exec i { s with input := ws } = withInput ws (exec i s) := by
  by_cases hf : i.isFrameCommand = true
  · exact exec_frameCommand_withInput hf s ws
  cases i with
  | queryProductInfo | syncNetworkStatus | resetModuleInbound | queryNetworkStatus | unrecognizedCmd =>
    exact absurd rfl hf
  | setup => rfl
  | rxByte data => exact execRxByte_withInput data s ws
  | pollCheck => exact whenSetUp_withInput fun b => ite_withInput rfl rfl
  | resetRestart | leaveRejoin | dump => exact whenSetUp_withInput fun b => rfl

/-- A host operation has a word of its own (R83). -/
theorem exists_hostWord_of_not_isFrameCommand {i : Instr} (h : i.isFrameCommand = false) :
    ∃ w, encode i = .hostWord w := by
  cases i with
  | queryProductInfo | syncNetworkStatus | resetModuleInbound | queryNetworkStatus | unrecognizedCmd =>
    cases h
  | setup | rxByte | pollCheck | resetRestart | leaveRejoin | dump => exact ⟨_, rfl⟩

theorem hostWords_cons {i : Instr} {w : Half} (h : encode i = .hostWord w) (is : List Instr) :
    hostWords (i :: is) = w :: hostWords is := by
  simp only [hostWords, List.filterMap_cons, h]

theorem core_run_succ (h : step s = .next s') (k : Nat) :
    Host.Core.run core (k + 1) s = Host.Core.run core k s' := by
  have h' : core.step s = .next s' := h
  simp only [Host.Core.run, h']

/-- R82: a word with op 0 or from 7 on is of no row. -/
theorem decodeHostWord_of_reserved_op {w : Half}
    (hop : w.extractLsb' 12 4 = 0x0 ∨ 0x7 ≤ w.extractLsb' 12 4) :
    decodeHostWord w = .error (.reservedHostOp w) := by
  have hne (k : BitVec 4) (hk : ¬ (k = 0x0 ∨ 0x7 ≤ k)) : w.extractLsb' 12 4 ≠ k :=
    fun h => hk (h ▸ hop)
  simp only [decodeHostWord_eq_decodeByFields, decodeByFields, hne 0x1 (by decide), hne 0x2 (by decide),
    hne 0x3 (by decide), hne 0x4 (by decide), hne 0x5 (by decide), hne 0x6 (by decide), false_and, if_false,
    ite_self]

end Machine

/-! ### The obligations -/

open Machine

/-- Settles O45, by induction on the events: each word decodes to its event, which does the same whatever
words stand behind it. -/
theorem presentedWordsRunInOrder : Obligations.PresentedWordsRunInOrder := by
  intro events
  induction events with
  | nil =>
    intro s s' ws _ hinput hrun
    have hs : s = { s with input := ws } := by rw [← show s.input = ws from hinput]
    rw [← hs] at hrun
    exact hrun
  | cons i is ih =>
    intro s s' ws hevents hinput hrun
    obtain ⟨hi, his⟩ := List.forall_mem_cons.mp hevents
    obtain ⟨w, he⟩ := exists_hostWord_of_not_isFrameCommand hi
    rw [hostWords_cons he, List.cons_append] at hinput
    cases hexec : exec i { s with input := ws } with
    | fault r => simp only [runEvents, hexec] at hrun; cases hrun
    | refused r => simp only [runEvents, hexec] at hrun; cases hrun
    | next s1 =>
      have hstep : step s = .next { s1 with input := hostWords is ++ ws } := by
        rw [step_of_decode hinput (decodeHostWord_of_encode he)]
        exact (exec_withInput i { s with input := ws } _).trans (congrArg _ hexec)
      have hrest : s1 = { s1 with input := ws } := by
        rw [← show s1.input = ws from (exec_keeps_cfg_and_input hexec).2]
      rw [runEvents_cons_next hexec, hrest] at hrun
      exact (core_run_succ hstep is.length).trans (ih _ s' ws his rfl hrun)

/-- Settles O43: the step refuses what the decoder rejects, and by R82 such are the words of a reserved
op. -/
theorem reservedWordsAreRefused : Obligations.ReservedWordsAreRefused :=
  ⟨fun _ _ _ _ hinput he => step_of_decode_error hinput he,
    fun _ _ _ hinput hop => step_of_decode_error hinput (decodeHostWord_of_reserved_op hop)⟩

/-- Settles O42: the step's equation for a word that decodes. -/
theorem stepRunsTheDecodedEvent : Obligations.StepRunsTheDecodedEvent :=
  fun _ _ _ _ hinput hi => step_of_decode hinput hi

/-- Settles O44: the step's equation for no word. -/
theorem idleChangesNothing : Obligations.IdleChangesNothing :=
  fun _ hinput => step_of_no_input hinput

/-- Settles O52: an idle step emits nothing, an instruction at most one event. -/
theorem stepEmitsAtMostOneOutput : Obligations.StepEmitsAtMostOneOutput := by
  intro s s' h
  obtain ⟨-, rfl⟩ | ⟨w, ws, i, -, hexec⟩ := step_cases h
  · exact ⟨[], (List.append_nil _).symm, Nat.zero_le 1⟩
  · obtain ⟨o, hout, hlen⟩ := exec_emits_at_most_one hexec
    exact ⟨o, hout, hlen⟩

/-- Settles O53: an instruction writes neither, and the step takes the oldest word before it. -/
theorem configurationIsNeverWritten : Obligations.ConfigurationIsNeverWritten := by
  refine ⟨fun _ _ _ h => exec_keeps_cfg_and_input h, fun s s' h => ?_⟩
  obtain ⟨hinput, rfl⟩ | ⟨w, ws, i, hinput, hexec⟩ := step_cases h
  · exact ⟨rfl, by rw [hinput, List.tail_nil]⟩
  · obtain ⟨hcfg, hws⟩ := exec_keeps_cfg_and_input hexec
    exact ⟨hcfg, by rw [hws, hinput, List.tail_cons]⟩

/-- Settles O55: effect by effect. -/
theorem counterWriters : Obligations.CounterWriters := by
  intro s s' i b b' hb h hb' hne
  obtain ⟨b1, o, rfl, heff⟩ := exec_cases hb h
  cases hb'
  rcases heff.counter_writers hne with hi | ⟨hnext, f, rfl, hf⟩
  · exact .inl hi
  · exact .inr ⟨hnext, f, rfl, hf⟩

end Sys2Proof
end

section
/-! Proofs about the invariants I1 to I5 (10_state.md R33): every instruction completes on a block that meets
them and keeps them, so a step stops only at the input boundary (60_exceptions.md R220) and what it sends is
well formed; then the obligations. -/

namespace Sys2Proof

namespace Machine

variable {s s' : State} {b : Block}

/-! ### The buffer's invariants -/

/-- I1 to I4 of R33, which speak of the buffer alone. -/
abbrev BufInv (m : Memory) : Prop :=
  (1 ≤ m.length → m[0]? = some hdr0) ∧
  (2 ≤ m.length → m[1]? = some hdr1) ∧
  (8 ≤ m.length → m.length < 9 + (be16 (m.getD 6 0) (m.getD 7 0)).toNat) ∧
  m.length ≤ bufCap - 1

theorem Block.inv_iff (b : Block) : b.Inv ↔ BufInv b.buf ∧ b.seqCtr ≤ 0xFFF0 := by
  simp only [Block.Inv, BufInv, and_assoc]

theorem bufInv_nil : BufInv [] := by decide

theorem bufInv_first_header_byte : BufInv [0x55] := by decide

theorem bufInv_header : BufInv [0x55, 0xAA] := by decide

/-- A byte that does not complete the frame keeps the invariants. -/
theorem BufInv.append {m : Memory} (h : BufInv m) (h2 : 2 ≤ m.length)
    (hshort : ¬ (8 ≤ m.length ∧ m.length = 8 + (be16 (m.getD 6 0) (m.getD 7 0)).toNat)) (data : Byte) :
    BufInv (m ++ [data]) := by
  obtain ⟨h0, h1, hlen, hcap⟩ := h
  have hfield := (be16 (m.getD 6 0) (m.getD 7 0)).isLt
  simp only [bufCap] at hcap
  refine ⟨fun _ => ?_, fun _ => ?_, fun h8 => ?_, ?_⟩
  · rw [List.getElem?_append_left (by omega)]
    exact h0 (by omega)
  · rw [List.getElem?_append_left (by omega)]
    exact h1 h2
  · rw [List.length_append, List.length_singleton] at h8 ⊢
    by_cases h7 : m.length = 7
    · omega
    · rw [getD_append_of_lt (by omega), getD_append_of_lt (by omega)]
      have := hlen (by omega)
      omega
  · rw [List.length_append, List.length_singleton]
    simp only [bufCap]
    omega

/-! ### Every instruction completes -/

/-- R133: a completed header-checked frame is dispatched or dropped, and the buffer is empty after it. -/
theorem completeFrame_completes {r : FrameFields} {data : Byte} (hr : r.payload.length ≤ 65535)
    (hbuf : b.buf = frameBody r ++ [data]) :
    ∃ s' b', completeFrame b s = .next s' ∧ s'.block = some b' ∧ b'.buf = [] := by
  by_cases hcks : cks (frameBody r) = data
  · obtain ⟨b', o, hexec, hbuf', -⟩ := exec_frameCommand (s := s.withBlock (bufClear b))
      (State.withBlock_block _ _) (demux_isFrameCommand r)
    have hframe : b.buf = encodeFrame r := by rw [hbuf, ← hcks, encodeFrame]
    exact ⟨_, b', (completeFrame_encodeFrame hr hframe).trans hexec, rfl, hbuf'⟩
  · exact ⟨_, bufClear b, completeFrame_of_cks_ne hbuf hcks, rfl, rfl⟩

/-- R138: under I1 to I4 RX_BYTE completes and keeps them. -/
theorem exec_rxByte_completes_in_bufInv (hb : s.block = some b) (hinv : BufInv b.buf) (data : Byte) :
    ∃ s' b', exec (.rxByte data) s = .next s' ∧ s'.block = some b' ∧ BufInv b'.buf := by
  match hbuf : b.buf with
  | [] =>
    rw [exec_rxByte_searching hb hbuf]
    split
    case isTrue => exact ⟨_, _, rfl, rfl, bufInv_first_header_byte⟩
    case isFalse => exact ⟨_, b, rfl, hb, hinv⟩
  | [first] =>
    rw [exec_rxByte_headerWait hb hbuf]
    split
    case isTrue h =>
      obtain ⟨rfl, rfl⟩ := h
      exact ⟨_, _, rfl, rfl, bufInv_header⟩
    case isFalse => exact ⟨_, _, rfl, rfl, bufInv_nil⟩
  | x :: y :: rest =>
    have h2 : 2 ≤ b.buf.length := by simp [hbuf]
    have ⟨h0, h1, _, hcap⟩ := hinv
    by_cases hfull : 8 ≤ b.buf.length ∧ b.buf.length = 8 + (be16 (b.buf.getD 6 0) (b.buf.getD 7 0)).toNat
    · obtain ⟨h8, hlen⟩ := hfull
      obtain ⟨r, hr, hbody⟩ := exists_frameBody (h0 (by omega)) (h1 h2) h8 hlen
      obtain ⟨s', b', hdone, hb', hempty⟩ := completeFrame_completes (s := s)
        (b := { b with buf := b.buf ++ [data] }) (data := data) hr (by rw [hbody])
      exact ⟨s', b', (exec_rxByte_completes data hb h8 hlen).trans hdone, hb', hempty ▸ bufInv_nil⟩
    · have hwaits := exec_rxByte_appends data hb h2 (by simp only [bufCap] at *; omega) <| by
        by_cases h7 : b.buf.length ≤ 7
        · omega
        · rw [getD_append_of_lt (by omega), getD_append_of_lt (by omega)]
          omega
      exact ⟨_, _, hwaits, rfl, hinv.append h2 hfull data⟩

/-- R220: under I1 to I4 every instruction completes on a block that is set up, and keeps them. -/
theorem exec_completes_in_bufInv (i : Instr) (hb : s.block = some b) (hinv : BufInv b.buf) :
    ∃ s' b', exec i s = .next s' ∧ s'.block = some b' ∧ BufInv b'.buf := by
  by_cases hi : i.isFrameCommand = true
  · obtain ⟨b', o, hexec, hbuf, -⟩ := exec_frameCommand hb hi
    exact ⟨_, b', hexec, rfl, hbuf ▸ hinv⟩
  cases i with
  | queryProductInfo | syncNetworkStatus | resetModuleInbound | queryNetworkStatus | unrecognizedCmd =>
    exact absurd rfl hi
  | setup => exact ⟨_, _, rfl, rfl, bufInv_nil⟩
  | rxByte data => exact exec_rxByte_completes_in_bufInv hb hinv data
  | pollCheck due =>
    rw [exec_pollCheck hb, sendPoll_eq]
    split
    case isTrue => exact ⟨_, _, rfl, rfl, hinv⟩
    case isFalse => exact ⟨_, b, rfl, hb, hinv⟩
  | resetRestart => exact ⟨_, _, sendReset_eq hb modeResetRestart, rfl, hinv⟩
  | leaveRejoin => exact ⟨_, _, sendReset_eq hb modeLeaveRejoin, rfl, hinv⟩
  | dump => exact ⟨_, b, whenSetUp_some hb _, hb, hinv⟩

/-! ### The invariants I1 to I5 -/

/-- I5: SETUP writes a SEQ_INIT within the bound, and `next` stays within it. -/
theorem Effect.seqCtr_le {cfg : Config} {b' : Block} {i : Instr} {o : List Out}
    (h : Effect cfg b i b' o) (hb : b.seqCtr ≤ 0xFFF0) : b'.seqCtr ≤ 0xFFF0 := by
  cases h with
  | reset => exact cfg.seqInit_le
  | quiet | status | diag => exact hb
  | answer m q =>
    dsimp only
    split
    · exact nextSeq_le _
    · exact hb
  | poll | mode => exact nextSeq_le _

theorem State.inv_iff_of_block (hb : s.block = some b) : s.Inv ↔ b.Inv := by
  simp only [State.Inv, hb, Option.mem_some_iff, forall_eq']

theorem blockAfterSetup_inv (cfg : Config) : (blockAfterSetup cfg).Inv :=
  (Block.inv_iff _).mpr ⟨bufInv_nil, cfg.seqInit_le⟩

/-- R220 with R33: under the invariants every instruction completes on a block that is set up, leaves one set
up and keeps the invariants. -/
theorem exec_completes_in_inv (i : Instr) (hinv : s.Inv) (hb : s.block ≠ none) :
    ∃ s', exec i s = .next s' ∧ s'.Inv ∧ s'.block ≠ none := by
  obtain ⟨b, hb⟩ := Option.ne_none_iff_exists'.mp hb
  obtain ⟨hbuf, hctr⟩ := (Block.inv_iff b).mp ((State.inv_iff_of_block hb).mp hinv)
  obtain ⟨s', b', hexec, hb', hbuf'⟩ := exec_completes_in_bufInv i hb hbuf
  obtain ⟨b1, o, rfl, heff⟩ := exec_cases hb hexec
  cases hb'
  have hinv' : b'.Inv := (Block.inv_iff _).mpr ⟨hbuf', heff.seqCtr_le hctr⟩
  exact ⟨_, hexec, (State.inv_iff_of_block rfl).mpr hinv', Option.some_ne_none _⟩

theorem exec_keeps_inv {i : Instr} (hinv : s.Inv) (h : exec i s = .next s') : s'.Inv := by
  obtain ⟨b', o, rfl, ⟨-, rfl, -⟩ | ⟨b, hb, -⟩⟩ := exec_cases_of_any_state h
  · exact (State.inv_iff_of_block rfl).mpr (blockAfterSetup_inv s.cfg)
  · obtain ⟨s1, hexec, hinv', -⟩ := exec_completes_in_inv i hinv (hb ▸ Option.some_ne_none b)
    cases h.symm.trans hexec
    exact hinv'

/-- Under the invariants a block that is set up runs any list of instructions to its end. -/
theorem runEvents_completes_in_inv (events : List Instr) (hinv : s.Inv) (hb : s.block ≠ none) :
    ∃ s', runEvents events s = .next s' ∧ s'.Inv := by
  induction events generalizing s with
  | nil => exact ⟨s, rfl, hinv⟩
  | cons i is ih =>
    obtain ⟨s1, hexec, hinv1, hb1⟩ := exec_completes_in_inv i hinv hb
    rw [runEvents_cons_next hexec]
    exact ih hinv1 hb1

/-! ### The frames sent -/

/-- R70, R73, R106: an encoded frame of version `02` whose sequence is not the sentinel may be sent. -/
theorem frameLiteral_sentFrameOk {q : Half} {payload : List Byte} (hq : q ≠ 0xFFFF)
    (hp : payload.length ≤ 65535) (cmd : Byte) :
    sentFrameOk (frameLiteral q cmd payload) = true ∧ 9 ≤ (frameLiteral q cmd payload).length ∧
      (frameLiteral q cmd payload).length ≤ 65544 := by
  rw [frameLiteral, encodeFrame_length]
  refine ⟨?_, by dsimp only; omega, by dsimp only; omega⟩
  rw [sentFrameOk, validate_encodeFrame, deserialize_encodeFrame hp]
  simpa [sentinel] using hq

theorem ne_sentinel_of_le {c : Half} (h : c ≤ 0xFFF0) : c ≠ 0xFFFF := by
  rintro rfl
  exact absurd h (by decide)

/-- Every frame an effect sends from a counter within I5 may be sent. -/
theorem Effect.sentFrameOk {cfg : Config} {b' : Block} {i : Instr} {o : List Out} {f : List Byte}
    (h : Effect cfg b i b' o) (hb : b.seqCtr ≤ 0xFFF0) (hf : .tx f ∈ o) :
    sentFrameOk f = true ∧ 9 ≤ f.length ∧ f.length ≤ 65544 := by
  have hctr := ne_sentinel_of_le hb
  cases h with
  | reset | quiet => cases hf
  | status | diag => simp at hf
  | answer m q =>
    cases List.mem_singleton.mp hf
    refine frameLiteral_sentFrameOk ?_ cfg.productInfo_le 0x01
    split
    case isTrue => exact hctr
    case isFalse hq => exact hq
  | poll => cases List.mem_singleton.mp hf; exact frameLiteral_sentFrameOk hctr (by decide) 0x20
  | mode x => cases List.mem_singleton.mp hf; exact frameLiteral_sentFrameOk hctr (by simp) 0x03

end Machine

/-! ### The obligations -/

open Machine

/-- Settles O48: an idle step changes nothing, and a step that takes a word runs an instruction, which keeps
the invariants. -/
theorem stepKeepsTheInvariants : Obligations.StepKeepsTheInvariants := by
  intro s s' hinv h
  obtain ⟨-, rfl⟩ | ⟨w, ws, i, -, hexec⟩ := step_cases h
  · exact hinv
  · exact exec_keeps_inv (s := { s with input := ws }) hinv hexec

/-- Settles O49: frame commands and host operations complete on any buffer, RX_BYTE phase by phase under I1
to I4. -/
theorem everyInstructionCompletes : Obligations.EveryInstructionCompletes := by
  intro s i hinv hb
  obtain ⟨s', hexec, hinv', -⟩ := exec_completes_in_inv i hinv hb
  exact ⟨s', hexec, hinv'⟩

/-- Settles O51: SETUP sets up a block that meets the invariants, and from there every event completes. -/
theorem admittedRunsComplete : Obligations.AdmittedRunsComplete := by
  intro events s hadmitted
  cases events with
  | nil => cases hadmitted
  | cons i is =>
    simp only [admittedRun, List.head?_cons, Bool.and_eq_true, beq_iff_eq, Option.some.injEq] at hadmitted
    obtain ⟨rfl, -⟩ := hadmitted
    have hsetup : exec .setup s = .next (s.withBlock (blockAfterSetup s.cfg)) := rfl
    rw [runEvents_cons_next hsetup]
    exact runEvents_completes_in_inv is ((State.inv_iff_of_block rfl).mpr (blockAfterSetup_inv s.cfg))
      (Option.some_ne_none _)

/-- Settles O56: an idle step and SETUP send nothing; any other frame sent is the encoding of fields that fit,
with the counter or a sequence that is not the sentinel. -/
theorem everySentFrameIsWellFormed : Obligations.EverySentFrameIsWellFormed := by
  intro s s' o f hinv h hout hf
  obtain ⟨-, rfl⟩ | ⟨w, ws, i, -, hexec⟩ := step_cases h
  · rw [List.self_eq_append_right.mp hout] at hf
    cases hf
  · obtain ⟨b', o', rfl, hcases⟩ := exec_cases_of_any_state hexec
    obtain rfl : o' = o := List.append_cancel_left hout
    rcases hcases with ⟨-, -, rfl⟩ | ⟨b, hb, heff⟩
    · cases hf
    · exact heff.sentFrameOk ((Block.inv_iff b).mp (hinv b hb)).2 hf

/-- Settles O50: a word that decodes runs an instruction, which completes on a block that is set up and in
`Unset` completes or is refused as not set up; any other word is refused as reserved. -/
theorem stepStopsOnlyAtTheInputBoundary : Obligations.StepStopsOnlyAtTheInputBoundary := by
  intro s hinv
  cases hinput : s.input with
  | nil => exact .inl ⟨s, step_of_no_input hinput⟩
  | cons w ws =>
    cases hw : decodeHostWord w with
    | error e =>
      obtain rfl := decodeHostWord_eq_error hw
      exact .inr (.inr ⟨w, ws, rfl, hw, step_of_decode_error hinput hw⟩)
    | ok i =>
      rw [step_of_decode hinput hw]
      by_cases hb : s.block = none
      · by_cases hi : i = .setup
        · subst hi
          exact .inl ⟨_, rfl⟩
        · exact .inr (.inl ⟨hb, exec_eq_refused_of_unset hb hi⟩)
      · obtain ⟨s', hexec, -⟩ := exec_completes_in_inv (s := { s with input := ws }) i hinv hb
        exact .inl ⟨s', hexec⟩

/-- Settles O46: the reset state's fields, and SETUP on them. -/
theorem resetHoldsTheSpecsValues : Obligations.ResetHoldsTheSpecsValues :=
  ⟨rfl, rfl, rfl, rfl, rfl⟩

/-- Settles O47: the reset state's block is the one after SETUP. -/
theorem resetMeetsTheInvariants : Obligations.ResetMeetsTheInvariants :=
  (State.inv_iff_of_block (s := State.reset) rfl).mpr (blockAfterSetup_inv Config.installed)

end Sys2Proof
end

section
/-! Proofs about the optional poll timer (60_exceptions.md R231): each timed event is the normative event of
one due bit on the block; then the obligations. -/

namespace Sys2Proof

namespace Machine

variable {timeW : Nat} {tc : TimerConfig timeW} {t t' : TimedState timeW}

/-! ### One timed event -/

theorem liftTimed_eq_next {lastPoll : BitVec timeW} {a : Answer} (h : liftTimed lastPoll a = .next t') :
    a = .next t'.base := by
  cases a with
  | next s => cases h; rfl
  | fault f => cases h
  | refused r => cases h

/-- R231 on a block that is set up. -/
theorem execPollCheckT_of_block {b : Block} (hb : t.base.block = some b) (now : BitVec timeW) :
    execPollCheckT tc now t =
      if pollArmed b (dueAt tc now t) then .next { base := sendPoll b t.base, lastPoll := now }
      else if dueAt tc now t && tc.recordUnarmed then .next { t with lastPoll := now }
      else .next t := by
  simp only [execPollCheckT, hb]

/-- R230, R231: on the block, a timed check does what the normative check of its due bit does. -/
theorem exec_pollCheck_of_execPollCheckT {now : BitVec timeW} (h : execPollCheckT tc now t = .next t') :
    exec (.pollCheck (dueAt tc now t)) t.base = .next t'.base := by
  cases hb : t.base.block with
  | none => simp only [execPollCheckT, hb] at h; cases h
  | some b =>
    rw [execPollCheckT_of_block hb] at h
    rw [exec_pollCheck hb]
    split at h
    case isTrue harmed => cases h; rw [if_pos harmed]
    case isFalse harmed =>
      rw [if_neg harmed]
      split at h <;> cases h <;> rfl

/-- R231: each timed event stands for a normative event that does the same to the block. -/
theorem exists_instance_of_execTimed {e : TimedEvent timeW} (h : execTimed tc e t = .next t') :
    ∃ i, e.isInstanceOf i = true ∧ exec i t.base = .next t'.base := by
  cases e with
  | setup => exact ⟨.setup, rfl, liftTimed_eq_next h⟩
  | rxByte data => exact ⟨.rxByte data, beq_self_eq_true data, liftTimed_eq_next h⟩
  | pollCheckT now => exact ⟨.pollCheck (dueAt tc now t), rfl, exec_pollCheck_of_execPollCheckT h⟩
  | resetRestart => exact ⟨.resetRestart, rfl, liftTimed_eq_next h⟩
  | leaveRejoin => exact ⟨.leaveRejoin, rfl, liftTimed_eq_next h⟩
  | dump => exact ⟨.dump, rfl, liftTimed_eq_next h⟩

/-- A timed run that ends in a state passed its first event. -/
theorem runTimed_cons_eq_next {e : TimedEvent timeW} {es : List (TimedEvent timeW)}
    (h : runTimed tc (e :: es) t = .next t') :
    ∃ t1, execTimed tc e t = .next t1 ∧ runTimed tc es t1 = .next t' := by
  cases he : execTimed tc e t with
  | next t1 => simp only [runTimed, he] at h; exact ⟨t1, rfl, h⟩
  | fault f => simp only [runTimed, he] at h; cases h
  | refused r => simp only [runTimed, he] at h; cases h

/-- With the default comparison a check is due once the interval has elapsed. -/
theorem dueAt_of_atLeast (hcmp : tc.cmp = .atLeast) (now : BitVec timeW) :
    dueAt tc now t = decide (t.base.cfg.pollInterval ≤ (now - t.lastPoll).toNat) := by
  simp only [dueAt, hcmp]

/-- A check that is not due changes nothing. -/
theorem execPollCheckT_of_not_due {b : Block} {now : BitVec timeW} (hb : t.base.block = some b)
    (hdue : dueAt tc now t = false) : execPollCheckT tc now t = .next t := by
  rw [execPollCheckT_of_block hb, hdue, pollArmed, Bool.and_false]
  rfl

end Machine

/-! ### The obligations -/

open Machine

/-- Settles O58, by induction on the timed events: each is replaced by the normative event with the
due bit its reading gives. -/
theorem pollTimerRefinesTheDraw : Obligations.PollTimerRefinesTheDraw := by
  intro timeW tc es
  induction es with
  | nil =>
    intro t t' h
    cases h
    exact ⟨[], .nil, rfl⟩
  | cons e es ih =>
    intro t t' h
    obtain ⟨t1, he, hes⟩ := runTimed_cons_eq_next h
    obtain ⟨i, hstands, hexec⟩ := exists_instance_of_execTimed he
    obtain ⟨is, hall, hrun⟩ := ih t1 t' hes
    exact ⟨i :: is, .cons hstands hall, (runEvents_cons_next hexec).trans hrun⟩

/-- Settles O59: the first check is due and armed, so it polls and records its reading; measured from there
the later check is not due. -/
theorem timedPollsKeepTheInterval : Obligations.TimedPollsKeepTheInterval := by
  intro timeW tc t b now later hcmp hb hflag helapsed hearly
  have harmed : pollArmed b (dueAt tc now t) = true := by
    rw [pollArmed, hflag, dueAt_of_atLeast hcmp, decide_eq_true helapsed]
    rfl
  refine ⟨{ base := sendPoll b t.base, lastPoll := now }, ?_, rfl, ?_, ?_⟩
  · exact (execPollCheckT_of_block hb now).trans (if_pos harmed)
  · rw [exec_pollCheck hb, pollArmed, hflag]
    rfl
  · refine execPollCheckT_of_not_due (t := { base := sendPoll b t.base, lastPoll := now })
      (by rw [sendPoll_eq]) ?_
    rw [dueAt_of_atLeast hcmp]
    exact decide_eq_false (Nat.not_le_of_lt hearly)

end Sys2Proof
end
